-- ==== Sys2Proof/Word.lean ====
section
/-! DEFINITION. The widths the spec fixes: 16-bit operand ports and frames, 10-bit payloads, the 52-bit command word
and the 32-bit millisecond count (00_scope.md rules R6 and R8, 30_encoding.md rule R70, 20_memory.md rule R57). -/

namespace Sys2Proof

/-- One operand port `A`, `B` or `C`: `OPERAND_WIDTH = 16` bits (R6, R71). -/
abbrev Operand := BitVec 16

/-- A serial frame, moved as one 16-bit word (R8, R54). -/
abbrev Frame := BitVec 16

/-- The 10-bit data field of a write frame (R8). -/
abbrev Payload := BitVec 10

/-- The 52-bit word on the command port (R70). -/
abbrev CommandWord := BitVec 52

/-- A millisecond count of `TIME_WIDTH = 32` bits; BitVec subtraction is the modular difference of R10 and R57. -/
abbrev Time := BitVec 32

/-- A byte, met only where an environment moves a frame as two bytes (R58). -/
abbrev Byte := BitVec 8

end Sys2Proof
end

