-- ==== Sys2Proof/Syntax.lean ====
section
/-! DEFINITION. The operations of 30_encoding.md rule R72, the reserved codes of R73 and the two serial frame formats
of R76 and R77: one constructor per row of the opcode table. -/

namespace Sys2Proof

/-- What the block's ports carry: a command word (R70) or a frame on the serial bus (R54). -/
inductive PortWord where
  | command (cw : CommandWord)
  | frame (f : Frame)
deriving DecidableEq, Repr

/-- One constructor per row of the opcode table. A command carries the whole 16-bit ports that R72 lets it use;
masking to field widths is part of its meaning (R71). A reserved code carries all three ports, which nothing reads
(R202). A frame row carries its fields. -/
inductive Instr where
  /-- ENCW, encode write frame (R101). -/
  | encw (a b : Operand)
  /-- ENCR, encode read frame (R102). -/
  | encr (a : Operand)
  /-- DECF, decode and check a frame (R103). -/
  | decf (a : Operand)
  /-- PKBC, pack buck current (R121). -/
  | pkbc (a b : Operand)
  /-- PKOT, pack off-time (R122). -/
  | pkot (a b : Operand)
  /-- PKCT, pack buck control (R123). -/
  | pkct (a b c : Operand)
  /-- PKTR, pack thermal recovery (R124). -/
  | pktr (a b c : Operand)
  /-- CAL, calibrate: sampleCount, interSampleDelay (R141). -/
  | cal (a b : Operand)
  /-- SPOS, sample position (R148). -/
  | spos
  /-- POLL, gesture poll (R178). -/
  | poll
  /-- RDST, read status (R201). -/
  | rdst
  /-- Reserved op 0x0 (R202). -/
  | reserved0 (a b c : Operand)
  /-- Reserved op 0xC (R202). -/
  | reservedC (a b c : Operand)
  /-- Reserved op 0xD (R202). -/
  | reservedD (a b c : Operand)
  /-- Reserved op 0xE (R202). -/
  | reservedE (a b c : Operand)
  /-- Reserved op 0xF (R202). -/
  | reservedF (a b c : Operand)
  /-- A write frame on the serial bus (R76). -/
  | writeFrame (address : BitVec 4) (parity : BitVec 1) (payload : Payload)
  /-- A read frame on the serial bus; bits 8:0 are always 0 (R77). -/
  | readFrame (address : BitVec 5) (parity : BitVec 1)
deriving DecidableEq, Repr

end Sys2Proof
end

