-- ==== Sys2Proof/Decode.lean ====
section
/-! DEFINITION. Decoding of command words (30_encoding.md rules R70 to R74) and serial frames (R76, R77, R79), the
encoder (R87), the opcode table's rows, the byte order of a split frame (R58) and the assembler of R86. -/

namespace Sys2Proof

/-- Number of 1 bits among bits 0 to k-1 of a natural. -/
def onesBelow (v : Nat) : Nat → Nat
  | 0 => 0
  | k + 1 => onesBelow v k + (v.testBit k).toNat

/-- `popcount(v)`: the number of 1 bits of `v` (R10). -/
def popcount {w : Nat} (v : BitVec w) : Nat := onesBelow v.toNat w

/-- Why a word on the serial bus is no row of the opcode table. -/
inductive DecodeError where
  /-- Bit 15 is 0 but bits 8:0 are not all 0, so the word is not the read frame of R77. -/
  | readFrameReservedBits
  /-- A frame is exactly 16 bits, two bytes (R58, R60). -/
  | notTwoBytes
deriving DecidableEq, Repr

/-- Decoding of a command word (R70, R72, R73): total, every op code being one operation or reserved (R74). -/
def decodeCommand (cw : CommandWord) : Instr :=
  let a : Operand := cw.extractLsb' 0 16
  let b : Operand := cw.extractLsb' 16 16
  let c : Operand := cw.extractLsb' 32 16
  match cw.extractLsb' 48 4 with
  | 0x0#4 => .reserved0 a b c
  | 0x1#4 => .encw a b
  | 0x2#4 => .encr a
  | 0x3#4 => .decf a
  | 0x4#4 => .pkbc a b
  | 0x5#4 => .pkot a b
  | 0x6#4 => .pkct a b c
  | 0x7#4 => .pktr a b c
  | 0x8#4 => .cal a b
  | 0x9#4 => .spos
  | 0xA#4 => .poll
  | 0xB#4 => .rdst
  | 0xC#4 => .reservedC a b c
  | 0xD#4 => .reservedD a b c
  | 0xE#4 => .reservedE a b c
  | _ => .reservedF a b c

/-- Decoding of a frame (R79): bit 15 tells the kind, and a read frame has bits 8:0 zero (R77). Parity does not decide
the row; it is part of well-formedness. -/
def decodeFrame (f : Frame) : Except DecodeError Instr :=
  if f.extractLsb' 15 1 = 1#1 then
    .ok (.writeFrame (f.extractLsb' 11 4) (f.extractLsb' 10 1) (f.extractLsb' 0 10))
  else if f.extractLsb' 0 9 = 0#9 then
    .ok (.readFrame (f.extractLsb' 10 5) (f.extractLsb' 9 1))
  else
    .error .readFrameReservedBits

/-- Decoding of what a port carries. -/
def decode : PortWord → Except DecodeError Instr
  | .command cw => .ok (decodeCommand cw)
  | .frame f => decodeFrame f

/-- R58: a frame moved as two bytes has the byte of bits 15:8 first. -/
def frameBytes (f : Frame) : List Byte := [f.extractLsb' 8 8, f.extractLsb' 0 8]

/-- Decoding of a frame from bytes in the order of R58, total on any list of bytes. -/
def decodeFrameBytes : List Byte → Except DecodeError Instr
  | [hi, lo] => decodeFrame (hi ++ lo)
  | _ => .error .notTwoBytes

/-- The command word `{op, C, B, A}` of R70. -/
def commandWord (op : BitVec 4) (a b c : Operand) : CommandWord := op ++ c ++ b ++ a

/-- The encoder (R87): operands that the operation does not use encode as 0 (R86). -/
def encode : Instr → PortWord
  | .reserved0 a b c => .command (commandWord 0x0#4 a b c)
  | .encw a b => .command (commandWord 0x1#4 a b 0)
  | .encr a => .command (commandWord 0x2#4 a 0 0)
  | .decf a => .command (commandWord 0x3#4 a 0 0)
  | .pkbc a b => .command (commandWord 0x4#4 a b 0)
  | .pkot a b => .command (commandWord 0x5#4 a b 0)
  | .pkct a b c => .command (commandWord 0x6#4 a b c)
  | .pktr a b c => .command (commandWord 0x7#4 a b c)
  | .cal a b => .command (commandWord 0x8#4 a b 0)
  | .spos => .command (commandWord 0x9#4 0 0 0)
  | .poll => .command (commandWord 0xA#4 0 0 0)
  | .rdst => .command (commandWord 0xB#4 0 0 0)
  | .reservedC a b c => .command (commandWord 0xC#4 a b c)
  | .reservedD a b c => .command (commandWord 0xD#4 a b c)
  | .reservedE a b c => .command (commandWord 0xE#4 a b c)
  | .reservedF a b c => .command (commandWord 0xF#4 a b c)
  | .writeFrame address parity payload => .frame (1#1 ++ address ++ parity ++ payload)
  | .readFrame address parity => .frame (0#1 ++ address ++ parity ++ 0#9)

/-- The bits a port carries, as a number. -/
def PortWord.bits : PortWord → Nat
  | .command cw => cw.toNat
  | .frame f => f.toNat

/-- How many bits a port carries. -/
def PortWord.width : PortWord → Nat
  | .command _ => 52
  | .frame _ => 16

/-- One row of the opcode table: width, mask and match. -/
structure OpRow where
  width : Nat
  mask : Nat
  pattern : Nat
deriving DecidableEq, Repr

/-- The rows of the opcode table, in its order. -/
def opTable : List OpRow :=
  [⟨52, 0xf000000000000, 0x1000000000000⟩, ⟨52, 0xf000000000000, 0x2000000000000⟩,
   ⟨52, 0xf000000000000, 0x3000000000000⟩, ⟨52, 0xf000000000000, 0x4000000000000⟩,
   ⟨52, 0xf000000000000, 0x5000000000000⟩, ⟨52, 0xf000000000000, 0x6000000000000⟩,
   ⟨52, 0xf000000000000, 0x7000000000000⟩, ⟨52, 0xf000000000000, 0x8000000000000⟩,
   ⟨52, 0xf000000000000, 0x9000000000000⟩, ⟨52, 0xf000000000000, 0xa000000000000⟩,
   ⟨52, 0xf000000000000, 0xb000000000000⟩, ⟨52, 0xf000000000000, 0x0⟩,
   ⟨52, 0xf000000000000, 0xc000000000000⟩, ⟨52, 0xf000000000000, 0xd000000000000⟩,
   ⟨52, 0xf000000000000, 0xe000000000000⟩, ⟨52, 0xf000000000000, 0xf000000000000⟩,
   ⟨16, 0x8000, 0x8000⟩, ⟨16, 0x81ff, 0x0⟩]

/-- The place of an instruction's row in `opTable`. -/
def Instr.rowIndex : Instr → Nat
  | .encw _ _ => 0
  | .encr _ => 1
  | .decf _ => 2
  | .pkbc _ _ => 3
  | .pkot _ _ => 4
  | .pkct _ _ _ => 5
  | .pktr _ _ _ => 6
  | .cal _ _ => 7
  | .spos => 8
  | .poll => 9
  | .rdst => 10
  | .reserved0 _ _ _ => 11
  | .reservedC _ _ _ => 12
  | .reservedD _ _ _ => 13
  | .reservedE _ _ _ => 14
  | .reservedF _ _ _ => 15
  | .writeFrame _ _ _ => 16
  | .readFrame _ _ => 17

/-- A word matches a row when it has the row's width and the row's fixed bits. -/
def OpRow.matches (r : OpRow) (w : PortWord) : Bool :=
  w.width == r.width && (w.bits &&& r.mask) == r.pattern

/-- Assembler operand: masked to the 16-bit port (R87). -/
def operand (n : Nat) : Operand := BitVec.ofNat 16 n

/-- The assembler of R86: a mnemonic followed by the used operands in the order A, B, C. The NOW value after a POLL is
an input, not part of the word. A reserved code is written `.cmd` with its op code and optional operands. -/
def assemble : String → List Nat → Option Instr
  | "ENCW", [a, b] => some (.encw (operand a) (operand b))
  | "ENCR", [a] => some (.encr (operand a))
  | "DECF", [a] => some (.decf (operand a))
  | "PKBC", [a, b] => some (.pkbc (operand a) (operand b))
  | "PKOT", [a, b] => some (.pkot (operand a) (operand b))
  | "PKCT", [a, b, c] => some (.pkct (operand a) (operand b) (operand c))
  | "PKTR", [a, b, c] => some (.pktr (operand a) (operand b) (operand c))
  | "CAL", [a, b] => some (.cal (operand a) (operand b))
  | "SPOS", [] => some .spos
  | "POLL", [] => some .poll
  | "RDST", [] => some .rdst
  | ".cmd", op :: operands =>
    if operands.length ≤ 3 then
      let a := operand (operands.getD 0 0)
      let b := operand (operands.getD 1 0)
      let c := operand (operands.getD 2 0)
      match op with
      | 0x0 => some (.reserved0 a b c)
      | 0xC => some (.reservedC a b c)
      | 0xD => some (.reservedD a b c)
      | 0xE => some (.reservedE a b c)
      | 0xF => some (.reservedF a b c)
      | _ => none
    else none
  | _, _ => none

/-- The port word whose bits are `w`, as the opcode table numbers them: rows of at most 16 bits are frames. -/
def tablePortWord (nbits w : Nat) : PortWord :=
  if nbits ≤ 16 then .frame (BitVec.ofNat 16 w) else .command (BitVec.ofNat 52 w)

/-- The instruction the decoder reads from a table word; a word too wide for its port is none. -/
def decodeTableWord (nbits w : Nat) : Option Instr :=
  if w < 2 ^ (if nbits ≤ 16 then 16 else 52) then (decode (tablePortWord nbits w)).toOption else none

end Sys2Proof
end

