-- ==== Sys2Proof/Config.lean ====
section
/-! DEFINITION. The implementation parameters of 00_scope.md rule R6 with their legal ranges (R7), and the model's
free values: constants with no body, of which nothing can be proved. -/

namespace Sys2Proof

/-- `NUMERICS` (R6, R11, decision D7): the exact rational arithmetic of the rules, or a finite-precision realisation.
`format` tells realisations apart; what a realisation computes is the free value `Config.realised`. -/
inductive Numerics where
  | exact
  | finite (format : Nat)
deriving DecidableEq, Repr

/-- The arithmetic operations that the slider and gesture rules use and that a realisation may round.
`natural` is the conversion of a natural to a rational (R11); its second operand is not used. -/
inductive NumOp where
  | natural
  | add
  | sub
  | mul
  | div
deriving DecidableEq, Repr

/-- The parameters of R6, as plain data. `TIME_WIDTH` (32) and `OPERAND_WIDTH` (16) are fixed by the types `Time` and
`Operand`. `delayUnit` and `busSettleUs` are read by no rule of the block, as R6 says. -/
structure Params where
  /-- `PAD_COUNT`, written `N`. -/
  padCount : Nat
  /-- `MAX_PADS` (OPEN). -/
  maxPads : Nat
  /-- `READING_WIDTH` (OPEN). -/
  readingWidth : Nat
  /-- `DROP_FRACTION`, written `d`. -/
  dropFraction : ℚ
  /-- `SAMPLE_INTERVAL_MS`, written `Tint`. -/
  sampleIntervalMs : Nat
  /-- `MAX_VELOCITY`, positions per second. -/
  maxVelocity : ℚ
  /-- `DEADZONE`. -/
  deadzone : ℚ
  /-- `FSO_SHIFT`. -/
  fsoShift : Nat
  /-- `NUMERICS`. -/
  numerics : Numerics
  /-- `HAS_READ_PATH`. -/
  hasReadPath : Bool
  /-- `DELAY_UNIT` (OPEN). -/
  delayUnit : ℚ
  /-- `BUS_SETTLE_US` (OPEN). -/
  busSettleUs : ℚ
deriving DecidableEq, Repr

/-- The legal ranges of R6. -/
def Params.legal (p : Params) : Bool :=
  decide (2 ≤ p.maxPads) && decide (2 ≤ p.padCount) && decide (p.padCount ≤ p.maxPads)
    && decide (1 ≤ p.readingWidth)
    && decide (0 ≤ p.dropFraction) && decide (p.dropFraction ≤ 1)
    && decide (p.sampleIntervalMs < 2 ^ 32)
    && decide (0 < p.maxVelocity) && decide (0 ≤ p.deadzone)
    && decide (p.fsoShift ≤ 7)

/-- A legal configuration record. R7: "there is no model instance" for parameters out of range, so none can be
built. -/
structure Config extends Params where
  isLegal : toParams.legal = true
deriving DecidableEq, Repr

/-- Instantiation of the block with parameters (R7): refused, by `none`, when a range is broken. -/
def Config.ofParams (p : Params) : Option Config :=
  if h : p.legal = true then some { toParams := p, isLegal := h } else none

/-- Free value: the reading that pad sampler draw number `k` gives when the environment has supplied none
(R55: "a free draw (an oracle answer)"; log entry 4). -/
opaque Config.freeReading : Nat → Nat

/-- Free value: what the finite-precision realisation `format` computes for an operation on exact operands (D7: "a
total function from the exact operands to the implemented result, of which the model assumes nothing but that it
depends on the operands alone"; log entry 7). -/
opaque Config.realised : Nat → NumOp → ℚ → ℚ → ℚ

/-- The configuration at `State.reset`: CFG0 of 95_test_vectors.md; `MAX_PADS`, `READING_WIDTH`, `DELAY_UNIT` and
`BUS_SETTLE_US`, which CFG0 leaves OPEN, are DESIGN CHOICE (log entry 2). Unsafe: no statement may rest on them. The
rationals are written in normal form so that reset evaluates. -/
def Config.cfg0 : Config where
  padCount := 3
  maxPads := 3
  readingWidth := 16
  dropFraction := ⟨3, 10, by decide, by decide⟩
  sampleIntervalMs := 20
  maxVelocity := ⟨20, 1, by decide, by decide⟩
  deadzone := ⟨1, 10, by decide, by decide⟩
  fsoShift := 0
  numerics := .exact
  hasReadPath := true
  delayUnit := ⟨1, 1, by decide, by decide⟩
  busSettleUs := ⟨1, 1, by decide, by decide⟩
  isLegal := by decide

end Sys2Proof
end

