-- ==== Sys2Proof/Machine/State.lean ====
section
/-! DEFINITION. The machine's state: the block's architectural state (10_state.md rules R20 to R33), the configuration
record the block is instantiated with (00_scope.md rule R6), and the data at the block's interfaces (20_memory.md
rules R54 to R57, 30_encoding.md rules R70 and R75). Plain data. -/

namespace Sys2Proof.Machine

/-- The gesture mode (R26). -/
inductive GestureMode where
  | idle
  | active
deriving DecidableEq, Repr

/-- The block's architectural state, `S` in the spec: exactly the fields of R33. -/
structure Block where
  /-- `S.baseline[i]` (R24). -/
  baseline : List ℚ
  /-- `S.calibrated` (R25). -/
  calibrated : Bool
  /-- `S.gstate` (R26). -/
  gstate : GestureMode
  /-- `S.startPos` (R27). -/
  startPos : ℚ
  /-- `S.prevPos` (R27). -/
  prevPos : ℚ
  /-- `S.startTime` (R28). -/
  startTime : Time
  /-- `S.prevTime` (R28). -/
  prevTime : Time
  /-- `S.lastAccept` (R29). -/
  lastAccept : Time
  /-- `S.haveAccept` (R29). -/
  haveAccept : Bool
  /-- `S.err`: bit 0 ILLEGAL_CMD, bit 1 BAD_OPERAND (R30). -/
  err : BitVec 2
deriving DecidableEq, Repr

/-- The reset values of R33 and R230. -/
def Block.reset (cfg : Config) : Block where
  baseline := List.replicate cfg.padCount 0
  calibrated := false
  gstate := .idle
  startPos := 0
  prevPos := 0
  startTime := 0
  prevTime := 0
  lastAccept := 0
  haveAccept := false
  err := 0

/-- The response record of R75. A field an operation does not name is 0. -/
structure Response where
  frame : Frame := 0
  payload : Payload := 0
  dDir : BitVec 1 := 0
  dAddr : BitVec 5 := 0
  dData : BitVec 10 := 0
  parityOk : BitVec 1 := 0
  rsvOk : BitVec 1 := 0
  posValid : BitVec 1 := 0
  pos : ℚ := 0
  accepted : BitVec 1 := 0
  kind : BitVec 2 := 0
  dir : BitVec 1 := 0
  mag : ℚ := 0
  status : BitVec 16 := 0
deriving DecidableEq, Repr

/-- A request of the block to an external collaborator: one reading of a pad (R55), or a delay (R56). -/
inductive Request where
  | padRead (pad : Nat)
  | delay (units : Operand)
deriving DecidableEq, Repr

/-- What happens on the serial bus while a frame is moved (R54, R60). -/
inductive WireEvent where
  | select
  | settle
  | bit (b : Bool)
  | deselect
deriving DecidableEq, Repr

/-- What the last step that took an event showed at the block's interfaces: the response of a command (none when the
event was no command), the requests it made in order, and the serial bus while a frame was moved. A step with no event
leaves it as it was: DESIGN CHOICE (log entry 8), the spec does not say what the outputs show then. Not state of the
block: nothing reads it (R23). -/
structure Output where
  response : Option Response := none
  requests : List Request := []
  wire : List WireEvent := []
deriving DecidableEq, Repr

/-- The external capacitance sampler (R55): the readings the environment has supplied, in the order they will be
drawn, and how many have been drawn. Once none is supplied, draws are the free value `Config.freeReading`. -/
structure Sampler where
  supplied : List Nat
  drawn : Nat
deriving DecidableEq, Repr

/-- What the environment does to the block, in the order it does it (R21, R62): a command with the value of NOW at its
issue (R57, R70), the reset input (R231), or a frame moved on the serial bus (R54). DESIGN CHOICE (log entry 8). -/
inductive PortEvent where
  | command (now : Time) (cw : CommandWord)
  | reset
  | frame (f : Frame)
deriving DecidableEq, Repr

/-- The whole machine. `blk` is the block's own state. `cfg` is the static configuration record, which no step writes
(R6; log entry 1). The other fields are the model's own, for the block's interfaces: `port` the events the environment
has still to present, `now` the NOW input, `sampler` the pad-reading port, `out` the last event's output. -/
structure State where
  cfg : Config
  blk : Block
  port : List PortEvent
  now : Time
  sampler : Sampler
  out : Output
deriving DecidableEq, Repr

/-- The machine right after reset, instantiated with a configuration, with nothing presented to it. -/
def State.resetWith (cfg : Config) : State where
  cfg := cfg
  blk := Block.reset cfg
  port := []
  now := 0
  sampler := { supplied := [], drawn := 0 }
  out := {}

/-- The machine right after reset (R230). Its configuration is `Config.cfg0` (log entry 2), its interface fields are
empty (log entry 3). -/
def State.reset : State := State.resetWith Config.cfg0

/-- Reasons the machine stops with a fault: none. R210: "no operation stops, redirects or aborts the command stream".
An empty type: no step can fault. -/
inductive Fault where
deriving DecidableEq, Repr

/-- Reasons the model refuses a step. No meaning and no step raises one. -/
inductive Refusal where
  /-- Raised by an arm of `exec` whose instruction has no meaning yet (no arm is so). Safe. -/
  | notModelled (mnemonic : String)
deriving DecidableEq, Repr

end Sys2Proof.Machine
end

