-- ==== Sys2Proof/Machine/Flags.lean ====
section
/-! DEFINITION. The sticky error flags (10_state.md rule R30), the status word (R31), and the one-bit results of the
frame codec (40_frame_codec.md rules R100 and R103). -/

namespace Sys2Proof.Machine

/-- The error conditions of 60_exceptions.md rule R212; this list is complete. -/
inductive ErrorFlag where
  | illegalCmd
  | badOperand
deriving DecidableEq, Repr

/-- The bit of `S.err` that a flag is (R30). -/
def ErrorFlag.bit : ErrorFlag → BitVec 2
  | .illegalCmd => 0b01#2
  | .badOperand => 0b10#2

/-- A condition as a 1-bit response field. -/
def flag (p : Bool) : BitVec 1 := if p then 1#1 else 0#1

/-- The status word of R31 and R201: `zext_16({S.err[1], S.err[0], ACT, S.calibrated})`. -/
def statusWord (b : Block) : BitVec 16 :=
  (b.err.extractLsb' 1 1 ++ b.err.extractLsb' 0 1 ++ flag (b.gstate == .active) ++ flag b.calibrated).setWidth 16

/-- `OddParityBit(F0) = 1 - (popcount(F0) mod 2)` (R100). -/
def oddParityBit (f0 : Frame) : BitVec 16 := BitVec.ofNat 16 (1 - popcount f0 % 2)

/-- `parity_ok = popcount(F) mod 2` (R103). -/
def parityOk (f : Frame) : BitVec 1 := BitVec.ofNat 1 (popcount f % 2)

end Sys2Proof.Machine
end

