-- ==== Sys2Proof/Machine/Operands.lean ====
section
/-! DEFINITION. Operand forms: masking to a field's width and placing a field (00_scope.md rules R9 and R10,
30_encoding.md rule R71, 41_payload_packer.md rule R120). -/

namespace Sys2Proof.Machine

/-- `mask_w(v) = v mod 2^w`, kept on the 16-bit port (R10). -/
def mask (w : Nat) (v : Operand) : BitVec 16 := (v.setWidth w).setWidth 16

/-- R120: a field operand masked to `w` bits, then shifted to bit `lo` of a 10-bit payload. -/
def placeField (w lo : Nat) (v : Operand) : Payload := (v.setWidth w).setWidth 10 <<< lo

end Sys2Proof.Machine
end

