-- ==== Sys2Proof/Machine/Ops.lean ====
section
/-! DEFINITION. The named operations that the meanings share: the pseudocode primitives of 00_scope.md rule R12
(respond, raise, PadRead, Delay), the arithmetic of R11, the position sample (42_slider.md rule R145), the motion
function (43_gesture.md rule R176), the reset input (70_reset_and_hazards.md rule R231) and the movement of a frame on
the serial bus (20_memory.md rule R54). -/

namespace Sys2Proof.Machine

/-! ### Responses and errors -/

/-- `respond(...)` (R12): the response of a command that makes no request. -/
def respond (r : Response) (s : State) : State := { s with out := { response := some r } }

/-- `raise E` (R211): sets the sticky flag; no other state effect, no pad reading, an all-zero response, and the
command stream goes on. The block has no other exception and nothing to return from (R214). -/
def raise (e : ErrorFlag) (s : State) : State :=
  respond {} { s with blk := { s.blk with err := s.blk.err ||| e.bit } }

/-- The reset input (R231): every state field of the block takes its R230 value; the configuration does not change. -/
def applyReset (s : State) : State := { s with blk := Block.reset s.cfg, out := {} }

/-! ### Arithmetic -/

/-- An operation over the exact rationals (R11). -/
def exactOp : NumOp → ℚ → ℚ → ℚ
  | .natural, x, _ => x
  | .add, x, y => x + y
  | .sub, x, y => x - y
  | .mul, x, y => x * y
  | .div, x, y => x / y

/-- An operation under `NUMERICS`: exact, or the free result of a finite-precision realisation (R11, D7). -/
def arith (num : Numerics) (op : NumOp) (x y : ℚ) : ℚ :=
  match num with
  | .exact => exactOp op x y
  | .finite format => Config.realised format op x y

/-- A natural that is read, counted or indexed, where a rational is expected (R11). The rules' own constants do not
pass through it (log entry 7). -/
def ratOf (num : Numerics) (n : Nat) : ℚ := arith num .natural n 0

/-! ### The external collaborators -/

/-- The reading that the `k`-th coming draw gives: a natural below `2^READING_WIDTH`, not constrained further (R55). -/
def Sampler.upcoming (cfg : Config) (sm : Sampler) (k : Nat) : Nat :=
  (match sm.supplied[k]? with
   | some v => v
   | none => Config.freeReading (sm.drawn + k)) % 2 ^ cfg.readingWidth

/-- The sampler after `n` draws. -/
def Sampler.advance (sm : Sampler) (n : Nat) : Sampler :=
  { supplied := sm.supplied.drop n, drawn := sm.drawn + n }

/-- The collaborators while a command runs: the sampler, and the requests made so far, oldest first. -/
structure Collab where
  sampler : Sampler
  asked : List Request
deriving DecidableEq, Repr

/-- The collaborators at the start of a command. -/
def Collab.start (s : State) : Collab := { sampler := s.sampler, asked := [] }

/-- `PadRead(i)` (R55): the next reading, and the collaborators after it. -/
def padRead (cfg : Config) (i : Nat) (e : Collab) : Nat × Collab :=
  (e.sampler.upcoming cfg 0,
   { sampler := e.sampler.advance 1, asked := e.asked ++ [.padRead i] })

/-- `Delay(t)` (R56): a request, with no effect on state. -/
def delay (t : Operand) (e : Collab) : Collab := { e with asked := e.asked ++ [.delay t] }

/-- `respond(...)` of a command that used the collaborators. -/
def respondAfter (r : Response) (e : Collab) (s : State) : State :=
  { s with sampler := e.sampler, out := { response := some r, requests := e.asked } }

/-! ### The slider -/

/-- `S.baseline[i]` (R24); the file has an entry for every pad. -/
def Block.baselineAt (b : Block) (i : Nat) : ℚ := b.baseline.getD i 0

/-- `NominalPos(i) = i / (N - 1)` (R146). DESIGN CHOICE: under a finite `NUMERICS` the difference `N - 1` of naturals
is exact, and only its conversion is realised (log entry 7). -/
def nominalPos (cfg : Config) (i : Nat) : ℚ :=
  arith cfg.numerics .div (ratOf cfg.numerics i) (ratOf cfg.numerics (cfg.padCount - 1))

/-- `th = S.baseline[i] * (1 - d)` (R145). DESIGN CHOICE: under a finite `NUMERICS` the constant 1 and the parameter
`d` enter exactly (log entry 7). -/
def threshold (cfg : Config) (baseline : ℚ) : ℚ :=
  arith cfg.numerics .mul baseline (arith cfg.numerics .sub 1 cfg.dropFraction)

/-- The result of a position sample (R145). -/
inductive Sample where
  | noTouch
  | position (x : ℚ)
deriving DecidableEq, Repr

/-- `for i in i .. : v[i] = PadRead(i)`, `n` pads from pad `i` on (R145). -/
def readPads (cfg : Config) : (n i : Nat) → Collab → List Nat × Collab
  | 0, _, e => ([], e)
  | n + 1, i, e =>
    let one := padRead cfg i e
    let rest := readPads cfg n (i + 1) one.2
    (one.1 :: rest.1, rest.2)

/-- One pad's turn in the loop of R145: the sums `W` and `M` after pad `i` with reading `v`.
The comparison with the threshold is exact under every `NUMERICS` (log entry 7). -/
def addPad (cfg : Config) (b : Block) (i v : Nat) (acc : ℚ × ℚ) : ℚ × ℚ :=
  let num := cfg.numerics
  let th := threshold cfg (b.baselineAt i)
  if ratOf num v < th then
    let w := arith num .sub th (ratOf num v)
    (arith num .add acc.1 w, arith num .add acc.2 (arith num .mul (nominalPos cfg i) w))
  else acc

/-- The loop of R145 over the readings of pads `i`, `i + 1`, ... -/
def addPads (cfg : Config) (b : Block) : (i : Nat) → List Nat → ℚ × ℚ → ℚ × ℚ
  | _, [], acc => acc
  | i, v :: vs, acc => addPads cfg b (i + 1) vs (addPad cfg b i v acc)

/-- `if W = 0 then NoTouch else Position(M / W)` (R145). The test for 0 is exact under every `NUMERICS`
(log entry 7). -/
def centroid (num : Numerics) (acc : ℚ × ℚ) : Sample :=
  if acc.1 = 0 then .noTouch else .position (arith num .div acc.2 acc.1)

/-- The position that given readings of all pads mean (R145). -/
def positionOf (cfg : Config) (b : Block) (readings : List Nat) : Sample :=
  centroid cfg.numerics (addPads cfg b 0 readings (0, 0))

/-- `PositionSample()` (R145): one reading of every pad, in order, and what they mean. It writes no state. -/
def positionSample (s : State) : Sample × Collab :=
  let readings := readPads s.cfg s.cfg.padCount 0 (Collab.start s)
  (positionOf s.cfg s.blk readings.1, readings.2)

/-! ### The gesture machine -/

/-- Directions of motion (R85, R176). -/
inductive Direction where
  | forward
  | backward
deriving DecidableEq, Repr

/-- The events a poll can report (R85). -/
inductive GestureEvent where
  | none
  | motion (dir : Direction) (mag : ℚ)
  | ended (dir : Direction) (mag : ℚ)
deriving DecidableEq, Repr

/-- `dir`: 0 forward, 1 backward (R85). -/
def Direction.code : Direction → BitVec 1
  | .forward => 0#1
  | .backward => 1#1

/-- `clamp(x, lo, hi) = min(max(x, lo), hi)` (R11). -/
def clamp (x lo hi : ℚ) : ℚ := min (max x lo) hi

/-- `Motion(dx, dt_ms)` (R176). DESIGN CHOICE: under a finite `NUMERICS` the constants 1000, 0 and 1 and the parameters
enter exactly, and `|v|`, comparison, minimum and maximum are exact (log entry 7). -/
def motion (cfg : Config) (dx : ℚ) (dtMs : Nat) : Direction × ℚ :=
  let num := cfg.numerics
  let v := arith num .div (arith num .mul dx 1000) (ratOf num dtMs)
  let dir := if 0 ≤ v then Direction.forward else Direction.backward
  let m := clamp (arith num .div |v| cfg.maxVelocity) 0 1
  (dir, if m < cfg.deadzone then 0 else m)

/-- The response of an accepted poll (R85, R178). -/
def eventResponse : GestureEvent → Response
  | .none => { accepted := 1 }
  | .motion dir mag => { accepted := 1, kind := 0b01#2, dir := dir.code, mag := mag }
  | .ended dir mag => { accepted := 1, kind := 0b10#2, dir := dir.code, mag := mag }

/-! ### The serial bus -/

/-- The bits of a frame in wire order: bit 15 first, bit 0 last (R54). -/
def wireBits (f : Frame) : List Bool := (List.range 16).map fun k => f.getLsbD (15 - k)

/-- The bracket around a transfer (R60): select, settle, the 16 bits, settle, deselect. Where in the bracket the
settle delays stand is DEDUCED (log entry 6). -/
def transferEvents (f : Frame) : List WireEvent :=
  [.select, .settle] ++ (wireBits f).map .bit ++ [.settle, .deselect]

/-- The environment moves a frame on the serial bus. The block's state does not change (R61). -/
def transfer (f : Frame) (s : State) : State := { s with out := { wire := transferEvents f } }

end Sys2Proof.Machine
end

