-- ==== Sys2Proof/Machine/Codec.lean ====
section
/-! DEFINITION. The frame codec: ENCW, ENCR, DECF (40_frame_codec.md rules R100 to R105). Pure: no state is written. -/

namespace Sys2Proof.Machine

/-- The frame ENCW builds (R101, layout R76, parity R78). -/
def writeFrameOf (a b : Operand) : Frame :=
  let f0 : Frame := (1#16 <<< 15) ||| (mask 4 a <<< 11) ||| mask 10 b
  f0 ||| (oddParityBit f0 <<< 10)

/-- The frame ENCR builds (R102, layout R77, parity R78). -/
def readFrameOf (a : Operand) : Frame :=
  let f0 : Frame := (0#16 <<< 15) ||| (mask 5 a <<< 10)
  f0 ||| (oddParityBit f0 <<< 9)

/-- What DECF reports of a frame (R103). -/
def decodedFrame (f : Frame) : Response :=
  if f.extractLsb' 15 1 = 1#1 then
    { dDir := 1#1
      dAddr := (f.extractLsb' 11 4).setWidth 5
      dData := f.extractLsb' 0 10
      parityOk := parityOk f
      rsvOk := 1#1 }
  else
    { dDir := 0#1
      dAddr := f.extractLsb' 10 5
      dData := (f.extractLsb' 0 9).setWidth 10
      parityOk := parityOk f
      rsvOk := flag (f.extractLsb' 0 9 == 0#9) }

/-- ENCW (R101). -/
def execEncw (a b : Operand) (s : State) : Host.Outcome State Fault Refusal :=
  .next (respond { frame := writeFrameOf a b } s)

/-- ENCR (R102); without the read path its op code is reserved (R105, R203; log entry 12). -/
def execEncr (a : Operand) (s : State) : Host.Outcome State Fault Refusal :=
  .next (if s.cfg.hasReadPath then respond { frame := readFrameOf a } s else raise .illegalCmd s)

/-- DECF (R103). -/
def execDecf (a : Operand) (s : State) : Host.Outcome State Fault Refusal :=
  .next (respond (decodedFrame a) s)

end Sys2Proof.Machine
end

