-- ==== Sys2Proof/Machine/Frames.lean ====
section
/-! DEFINITION. The two frame rows of the opcode table (30_encoding.md rules R76 and R77). A frame is no command: its
row runs when the environment moves the frame on the serial bus, one transfer of 16 bits, most significant first
(20_memory.md rules R54 and R60). The block's state does not change (R61); what the external device does is outside
the block (R52; log entry 5). -/

namespace Sys2Proof.Machine

/-- A write frame is moved on the bus: direction 1, address, parity, payload (R76). -/
def execWriteFrame (address : BitVec 4) (parity : BitVec 1) (payload : Payload) (s : State) :
    Host.Outcome State Fault Refusal :=
  .next (transfer (1#1 ++ address ++ parity ++ payload) s)

/-- A read frame is moved on the bus: direction 0, address, parity, nine zero bits (R77). -/
def execReadFrame (address : BitVec 5) (parity : BitVec 1) (s : State) : Host.Outcome State Fault Refusal :=
  .next (transfer (0#1 ++ address ++ parity ++ 0#9) s)

/-- A bus word with bit 15 = 0 and bits 8:0 not all 0 is moved on the bus. It is a read frame by kind (R79) but not
the read frame of R77, so it has no row in the table; moving it is the same transfer (R54) and changes no state of the
block (R61; log entry 9). -/
def moveOtherFrame (f : Frame) (s : State) : Host.Outcome State Fault Refusal := .next (transfer f s)

end Sys2Proof.Machine
end

