-- ==== Sys2Proof/Machine/Gesture.lean ====
section
/-! DEFINITION. The gesture machine: POLL (43_gesture.md rules R170 to R180). -/

namespace Sys2Proof.Machine

/-- The rate limiter (R171): accepted when no poll has been accepted since reset, or at least `Tint` ms have elapsed. -/
def pollAccepted (s : State) : Bool :=
  !s.blk.haveAccept || decide (s.cfg.sampleIntervalMs ≤ (s.now - s.blk.lastAccept).toNat)

/-- The rate limiter takes NOW of an accepted poll (R171). -/
def acceptAt (now : Time) (b : Block) : Block := { b with lastAccept := now, haveAccept := true }

/-- Idle (R173). -/
def pollIdle (now : Time) (r : Sample) (b : Block) : Block × GestureEvent :=
  match r with
  | .noTouch => (b, .none)
  | .position x =>
    ({ b with gstate := .active, startPos := x, startTime := now, prevPos := x, prevTime := now }, .none)

/-- Active with a position (R174). -/
def pollTouched (cfg : Config) (now : Time) (x : ℚ) (b : Block) : Block × GestureEvent :=
  let dt := now - b.prevTime
  if dt = 0#32 then (b, .none)
  else
    let m := motion cfg (arith cfg.numerics .sub x b.prevPos) dt.toNat
    ({ b with prevPos := x, prevTime := now }, if 0 < m.2 then .motion m.1 m.2 else .none)

/-- Active and no touch: the release (R175). -/
def pollReleased (cfg : Config) (now : Time) (b : Block) : Block × GestureEvent :=
  let dt := now - b.startTime
  if dt = 0#32 then ({ b with gstate := .idle }, .none)
  else
    let m := motion cfg (arith cfg.numerics .sub b.prevPos b.startPos) dt.toNat
    ({ b with gstate := .idle }, if 0 < m.2 then .ended m.1 m.2 else .none)

/-- The accepted poll's step of the gesture machine on a sample (R178). -/
def gestureStep (cfg : Config) (now : Time) (r : Sample) (b : Block) : Block × GestureEvent :=
  match b.gstate with
  | .idle => pollIdle now r b
  | .active =>
    match r with
    | .position x => pollTouched cfg now x b
    | .noTouch => pollReleased cfg now b

/-- An accepted poll (R178): the rate limiter moves, every pad is read once, the gesture machine steps. -/
def acceptedPoll (s : State) : State :=
  let sample := positionSample s
  let result := gestureStep s.cfg s.now sample.1 (acceptAt s.now s.blk)
  respondAfter (eventResponse result.2) sample.2 { s with blk := result.1 }

/-- POLL (R178); a poll that is not accepted is a no-op (R172). -/
def execPoll (s : State) : Host.Outcome State Fault Refusal :=
  .next (if pollAccepted s then acceptedPoll s else respond {} s)

end Sys2Proof.Machine
end

