-- ==== Sys2Proof/Machine/Packer.lean ====
section
/-! DEFINITION. The payload packer: PKBC, PKOT, PKCT, PKTR (41_payload_packer.md rules R120 to R124). Pure: no state
is written. -/

namespace Sys2Proof.Machine

/-- PKBC (R121, layout R80). -/
def execPkbc (a b : Operand) (s : State) : Host.Outcome State Fault Refusal :=
  .next (respond { payload := placeField 2 8 a ||| placeField 8 0 b } s)

/-- PKOT (R122, layout R81). -/
def execPkot (a b : Operand) (s : State) : Host.Outcome State Fault Refusal :=
  .next (respond { payload := placeField 5 5 a ||| placeField 5 0 b } s)

/-- PKCT (R123, layout R82): the fields may overlap and are OR-ed (90_conflicts.md C1). -/
def execPkct (a b c : Operand) (s : State) : Host.Outcome State Fault Refusal :=
  .next (respond { payload := placeField 3 s.cfg.fsoShift a ||| placeField 1 1 b ||| placeField 1 0 c } s)

/-- PKTR (R124, layout R83). -/
def execPktr (a b c : Operand) (s : State) : Host.Outcome State Fault Refusal :=
  .next (respond { payload := placeField 1 9 a ||| placeField 1 8 b ||| placeField 8 0 c } s)

end Sys2Proof.Machine
end

