-- ==== Sys2Proof/Machine/Slider.lean ====
section
/-! DEFINITION. The slider estimator: CAL and SPOS (42_slider.md rules R140 to R150). -/

namespace Sys2Proof.Machine

/-- The inner loop of R141 for one pad: `n` more readings, the next being reading `k`, a delay before every one but
the first (R144). -/
def sumReadings (cfg : Config) (pad : Nat) (dly : Operand) : (n k : Nat) → ℚ × Collab → ℚ × Collab
  | 0, _, acc => acc
  | n + 1, k, acc =>
    let waited := if 0 < k then delay dly acc.2 else acc.2
    let one := padRead cfg pad waited
    sumReadings cfg pad dly n (k + 1)
      (arith cfg.numerics .add acc.1 (ratOf cfg.numerics one.1), one.2)

/-- The outer loop of R141, pad-major (R142): the means of `n` readings of each of `pads` pads from pad `i` on. -/
def newBaselines (cfg : Config) (n : Nat) (dly : Operand) : (pads i : Nat) → Collab → List ℚ × Collab
  | 0, _, e => ([], e)
  | pads + 1, i, e =>
    let one := sumReadings cfg i dly n 0 (0, e)
    let rest := newBaselines cfg n dly pads (i + 1) one.2
    (arith cfg.numerics .div one.1 (ratOf cfg.numerics n) :: rest.1, rest.2)

/-- A calibration with at least one sample (R141): every baseline replaced, the calibration flag set. -/
def calibrate (n : Nat) (dly : Operand) (s : State) : State :=
  let new := newBaselines s.cfg n dly s.cfg.padCount 0 (Collab.start s)
  respondAfter {} new.2 { s with blk := { s.blk with baseline := new.1, calibrated := true } }

/-- CAL (R141): `sampleCount = 0` raises BAD_OPERAND (R212). -/
def execCal (a b : Operand) (s : State) : Host.Outcome State Fault Refusal :=
  .next (if a = 0#16 then raise .badOperand s else calibrate a.toNat b s)

/-- The response of SPOS (R148). -/
def sampleResponse : Sample → Response
  | .noTouch => { posValid := 0#1, pos := 0 }
  | .position x => { posValid := 1#1, pos := x }

/-- SPOS (R148). -/
def execSpos (s : State) : Host.Outcome State Fault Refusal :=
  .next (respondAfter (sampleResponse (positionSample s).1) (positionSample s).2 s)

end Sys2Proof.Machine
end

