-- ==== Sys2Proof/Machine/Status.lean ====
section
/-! DEFINITION. RDST and the reserved command codes (44_status.md rules R200 to R203). -/

namespace Sys2Proof.Machine

/-- RDST (R201). -/
def execRdst (s : State) : Host.Outcome State Fault Refusal :=
  .next (respond { status := statusWord s.blk } s)

/-- Reserved code 0x0 (R202): operands are not read. -/
def execReserved0 (_a _b _c : Operand) (s : State) : Host.Outcome State Fault Refusal :=
  .next (raise .illegalCmd s)

/-- Reserved code 0xC (R202). -/
def execReservedC (_a _b _c : Operand) (s : State) : Host.Outcome State Fault Refusal :=
  .next (raise .illegalCmd s)

/-- Reserved code 0xD (R202). -/
def execReservedD (_a _b _c : Operand) (s : State) : Host.Outcome State Fault Refusal :=
  .next (raise .illegalCmd s)

/-- Reserved code 0xE (R202). -/
def execReservedE (_a _b _c : Operand) (s : State) : Host.Outcome State Fault Refusal :=
  .next (raise .illegalCmd s)

/-- Reserved code 0xF (R202). -/
def execReservedF (_a _b _c : Operand) (s : State) : Host.Outcome State Fault Refusal :=
  .next (raise .illegalCmd s)

end Sys2Proof.Machine
end

