-- ==== Sys2Proof/Machine/Dispatch.lean ====
section
/-! DEFINITION. Dispatch: one arm per constructor of Instr. -/

namespace Sys2Proof.Machine

/-- What an instruction does: one direct call of its meaning. -/
def exec (i : Instr) (s : State) : Host.Outcome State Fault Refusal :=
  match i with
  | .encw a b => Sys2Proof.Machine.execEncw a b s
  | .encr a => Sys2Proof.Machine.execEncr a s
  | .decf a => Sys2Proof.Machine.execDecf a s
  | .pkbc a b => Sys2Proof.Machine.execPkbc a b s
  | .pkot a b => Sys2Proof.Machine.execPkot a b s
  | .pkct a b c => Sys2Proof.Machine.execPkct a b c s
  | .pktr a b c => Sys2Proof.Machine.execPktr a b c s
  | .cal a b => Sys2Proof.Machine.execCal a b s
  | .spos => Sys2Proof.Machine.execSpos s
  | .poll => Sys2Proof.Machine.execPoll s
  | .rdst => Sys2Proof.Machine.execRdst s
  | .reserved0 a b c => Sys2Proof.Machine.execReserved0 a b c s
  | .reservedC a b c => Sys2Proof.Machine.execReservedC a b c s
  | .reservedD a b c => Sys2Proof.Machine.execReservedD a b c s
  | .reservedE a b c => Sys2Proof.Machine.execReservedE a b c s
  | .reservedF a b c => Sys2Proof.Machine.execReservedF a b c s
  | .writeFrame address parity payload => Sys2Proof.Machine.execWriteFrame address parity payload s
  | .readFrame address parity => Sys2Proof.Machine.execReadFrame address parity s

end Sys2Proof.Machine
end

