-- ==== Sys2Proof/Machine/Step.lean ====
section
/-! DEFINITION. One step of the machine: the block takes the next event that the environment presents (10_state.md
rule R21, 20_memory.md rule R62), as one atomic step (00_scope.md rule R13). There is no program counter and no fetch
(R21, R65). -/

namespace Sys2Proof.Machine

/-- A frame moved on the serial bus: as its row of the table, or, where it has none, by the same transfer. -/
def runFrame (f : Frame) (s : State) : Host.Outcome State Fault Refusal :=
  match decodeFrame f with
  | .ok i => exec i s
  | .error _ => moveOtherFrame f s

/-- One step. With nothing presented the block holds its state unchanged (R222); `out` then still shows the last
event's output, which is a DESIGN CHOICE (log entry 8). NOW is read at a command's issue (R57). Reset is applied
between commands (R231). -/
def step (s : State) : Host.Outcome State Fault Refusal :=
  match s.port with
  | [] => .next s
  | .command now cw :: rest => exec (decodeCommand cw) { s with port := rest, now := now }
  | .frame f :: rest => runFrame f { s with port := rest }
  | .reset :: rest => .next (applyReset { s with port := rest })

/-- The host issues the word next: a command on the command port with the present NOW, or a frame on the serial bus
(rows of at most 16 bits). Nothing else changes. -/
def State.withFetchWord (s : State) (nbits w : Nat) : State :=
  match tablePortWord nbits w with
  | .command cw => { s with port := .command s.now cw :: s.port }
  | .frame f => { s with port := .frame f :: s.port }

end Sys2Proof.Machine
end

