-- ==== Sys2Proof/Machine/DeviceMap.lean ====
section
/-! DEFINITION. The external device's register map (20_memory.md rule R51), the payload layouts (30_encoding.md rules
R80 to R84) and the pairing of packed payloads with registers (41_payload_packer.md rule R125). The block checks none
of it (R52, R125); claims use it to say what a payload's fields are. -/

namespace Sys2Proof.Machine

/-- The six registers the source lists (R51). -/
inductive DeviceRegister where
  | buck1Current
  | buck2Current
  | offTime
  | buckControl
  | thermalRecovery
  | ledSelectDuration
deriving DecidableEq, Repr

/-- The register at a write address (R51); the other addresses are not listed (R52). -/
def DeviceRegister.ofAddress (a : BitVec 4) : Option DeviceRegister :=
  match a with
  | 0x1#4 => some .buck1Current
  | 0x2#4 => some .buck2Current
  | 0x3#4 => some .offTime
  | 0x4#4 => some .buckControl
  | 0x5#4 => some .thermalRecovery
  | 0x6#4 => some .ledSelectDuration
  | _ => none

/-- A field of a payload: its lowest bit and its width. -/
structure PayloadField where
  name : String
  lo : Nat
  width : Nat
deriving DecidableEq, Repr

/-- A field's value in a payload. -/
def PayloadField.value (f : PayloadField) (p : Payload) : BitVec f.width := p.extractLsb' f.lo f.width

/-- The payload layouts R80 to R83; R84: the layout of register 0x06 is opaque, no field. The position of fsoMode is
the parameter FSO_SHIFT (R82). -/
def DeviceRegister.layout (cfg : Config) : DeviceRegister → List PayloadField
  | .buck1Current => [⟨"isensRange", 8, 2⟩, ⟨"currentThresholdCode", 0, 8⟩]
  | .buck2Current => [⟨"isensRange", 8, 2⟩, ⟨"currentThresholdCode", 0, 8⟩]
  | .offTime => [⟨"channel1Toff", 5, 5⟩, ⟨"channel2Toff", 0, 5⟩]
  | .buckControl => [⟨"fsoMode", cfg.fsoShift, 3⟩, ⟨"channel1Enable", 1, 1⟩, ⟨"channel2Enable", 0, 1⟩]
  | .thermalRecovery => [⟨"ch1AutoRecover", 9, 1⟩, ⟨"ch2AutoRecover", 8, 1⟩, ⟨"warningThreshold", 0, 8⟩]
  | .ledSelectDuration => []

/-- The registers a packer's payload is meant for (R125). -/
def packedFor : Instr → List DeviceRegister
  | .pkbc _ _ => [.buck1Current, .buck2Current]
  | .pkot _ _ => [.offTime]
  | .pkct _ _ _ => [.buckControl]
  | .pktr _ _ _ => [.thermalRecovery]
  | .encw _ _ => []
  | .encr _ => []
  | .decf _ => []
  | .cal _ _ => []
  | .spos => []
  | .poll => []
  | .rdst => []
  | .reserved0 _ _ _ => []
  | .reservedC _ _ _ => []
  | .reservedD _ _ _ => []
  | .reservedE _ _ _ => []
  | .reservedF _ _ _ => []
  | .writeFrame _ _ _ => []
  | .readFrame _ _ => []

end Sys2Proof.Machine
end

