-- ==== Sys2Proof/Safety.lean ====
section
/-! DEFINITION. The terms in which claims speak of the machine: the invariants the spec derives, the legal responses,
the shape of a position sample, the families of operations, and the host's duties. -/

namespace Sys2Proof.Safety

open Sys2Proof.Machine

/-- Invariants under every NUMERICS: one baseline per pad (R24), and R179 (a) and (b). -/
structure Inv (s : State) : Prop where
  baselinePerPad : s.blk.baseline.length = s.cfg.padCount
  activeHasAccepted : s.blk.gstate = .active → s.blk.haveAccept = true
  activePrevIsLastAccept :
    0 < s.cfg.sampleIntervalMs → s.blk.gstate = .active → s.blk.prevTime = s.blk.lastAccept

/-- Invariants of the exact arithmetic: the range of a baseline (R24), the state before any calibration (R149, R178),
and the range of the gesture positions while Active (R27). -/
structure ExactInv (s : State) : Prop where
  exact : s.cfg.numerics = .exact
  baselineRange : ∀ x ∈ s.blk.baseline, 0 ≤ x ∧ x < 2 ^ s.cfg.readingWidth
  uncalibratedZero : s.blk.calibrated = false → ∀ x ∈ s.blk.baseline, x = 0
  uncalibratedIdle : s.blk.calibrated = false → s.blk.gstate = .idle
  activePositions : s.blk.gstate = .active →
    (0 ≤ s.blk.startPos ∧ s.blk.startPos ≤ 1) ∧ (0 ≤ s.blk.prevPos ∧ s.blk.prevPos ≤ 1)

/-- The event fields of a legal response (R75, R85): `kind` is never 0b11, an absent event has direction and magnitude
0, a reported one a magnitude in (0, 1]. -/
structure EventLegal (r : Response) : Prop where
  kind : r.kind ≠ 0b11#2
  absent : r.kind = 0b00#2 → r.dir = 0#1 ∧ r.mag = 0
  present : r.kind ≠ 0b00#2 → 0 < r.mag ∧ r.mag ≤ 1

/-- The coming reading of pad `i`, when the next command samples every pad once (R145). -/
def padReading (s : State) (i : Nat) : ℚ := s.sampler.upcoming s.cfg i

/-- The exact threshold of pad `i` (R145). -/
def padThreshold (s : State) (i : Nat) : ℚ := s.blk.baselineAt i * (1 - s.cfg.dropFraction)

/-- The exact weight of pad `i` for the coming sample; 0 for a pad that does not cross its threshold (R145). -/
def padWeight (s : State) (i : Nat) : ℚ :=
  if padReading s i < padThreshold s i then padThreshold s i - padReading s i else 0

/-- The exact nominal position of pad `i` (R146). -/
def padNominal (s : State) (i : Nat) : ℚ := (i : ℚ) / ((s.cfg.padCount : ℚ) - 1)

/-- The requests of a position sample: one reading of every pad, in order (R145). -/
def sampleRequests (s : State) : List Request := (List.range s.cfg.padCount).map .padRead

/-- The requests of a calibration: pad-major, a delay between two readings of one pad (R141, R142, R144). -/
def calibrationRequests (pads n : Nat) (dly : Operand) : List Request :=
  (List.range pads).flatMap fun i =>
    (List.range n).flatMap fun k => if k = 0 then [.padRead i] else [.delay dly, .padRead i]

/-- The frame codec and payload packer operations (R22). -/
def isCodecOrPacker : Instr → Bool
  | .encw _ _ => true
  | .encr _ => true
  | .decf _ => true
  | .pkbc _ _ => true
  | .pkot _ _ => true
  | .pkct _ _ _ => true
  | .pktr _ _ _ => true
  | .cal _ _ => false
  | .spos => false
  | .poll => false
  | .rdst => false
  | .reserved0 _ _ _ => false
  | .reservedC _ _ _ => false
  | .reservedD _ _ _ => false
  | .reservedE _ _ _ => false
  | .reservedF _ _ _ => false
  | .writeFrame _ _ _ => false
  | .readFrame _ _ => false

/-- The commands that raise ILLEGAL_CMD under a configuration (R73, R203). -/
def isReserved (cfg : Config) : Instr → Bool
  | .encw _ _ => false
  | .encr _ => !cfg.hasReadPath
  | .decf _ => false
  | .pkbc _ _ => false
  | .pkot _ _ => false
  | .pkct _ _ _ => false
  | .pktr _ _ _ => false
  | .cal _ _ => false
  | .spos => false
  | .poll => false
  | .rdst => false
  | .reserved0 _ _ _ => true
  | .reservedC _ _ _ => true
  | .reservedD _ _ _ => true
  | .reservedE _ _ _ => true
  | .reservedF _ _ _ => true
  | .writeFrame _ _ _ => false
  | .readFrame _ _ => false

/-- How many low bits of the ports A, B and C an operation uses, by op code: the "operands used" column of R72. -/
def usedBits (op : BitVec 4) : Nat × Nat × Nat :=
  match op with
  | 0x1#4 => (4, 10, 0)
  | 0x2#4 => (5, 0, 0)
  | 0x3#4 => (16, 0, 0)
  | 0x4#4 => (2, 8, 0)
  | 0x5#4 => (5, 5, 0)
  | 0x6#4 => (3, 1, 1)
  | 0x7#4 => (1, 1, 8)
  | 0x8#4 => (16, 16, 0)
  | _ => (0, 0, 0)

/-- The command that raises BAD_OPERAND: CAL with `sampleCount = 0` (R212). -/
def raisesBadOperand : Instr → Bool
  | .encw _ _ => false
  | .encr _ => false
  | .decf _ => false
  | .pkbc _ _ => false
  | .pkot _ _ => false
  | .pkct _ _ _ => false
  | .pktr _ _ _ => false
  | .cal a _ => a == 0#16
  | .spos => false
  | .poll => false
  | .rdst => false
  | .reserved0 _ _ _ => false
  | .reservedC _ _ _ => false
  | .reservedD _ _ _ => false
  | .reservedE _ _ _ => false
  | .reservedF _ _ _ => false
  | .writeFrame _ _ _ => false
  | .readFrame _ _ => false

/-- The error flags after a command, from those before it: the complete list of error conditions of R212. -/
def errAfter (cfg : Config) (i : Instr) (err : BitVec 2) : BitVec 2 :=
  if isReserved cfg i = true then err ||| 0b01#2
  else if raisesBadOperand i = true then err ||| 0b10#2
  else err

/-- The bit that a bus event moves. -/
def movedBit : WireEvent → Option Bool
  | .select => none
  | .settle => none
  | .bit b => some b
  | .deselect => none

/-- What a command means for the boot order of R232: it calibrates, it samples positions, or neither. -/
inductive BootRole where
  | calibrates
  | samples
  | other
deriving DecidableEq, Repr

/-- The role of an instruction in the boot order of R232. -/
def bootRole : Instr → BootRole
  | .encw _ _ => .other
  | .encr _ => .other
  | .decf _ => .other
  | .pkbc _ _ => .other
  | .pkot _ _ => .other
  | .pkct _ _ _ => .other
  | .pktr _ _ _ => .other
  | .cal a _ => if a = 0#16 then .other else .calibrates
  | .spos => .samples
  | .poll => .samples
  | .rdst => .other
  | .reserved0 _ _ _ => .other
  | .reservedC _ _ _ => .other
  | .reservedD _ _ _ => .other
  | .reservedE _ _ _ => .other
  | .reservedF _ _ _ => .other
  | .writeFrame _ _ _ => .other
  | .readFrame _ _ => .other

/-- The host's boot order (R232, R234): with `done` telling whether a calibration has been done since reset, every
SPOS and POLL of the events to come follows a CAL with `sampleCount >= 1` since the last reset. -/
def calibratesFirst : (done : Bool) → List PortEvent → Bool
  | _, [] => true
  | _, .reset :: rest => calibratesFirst false rest
  | done, .frame _ :: rest => calibratesFirst done rest
  | done, .command _ cw :: rest =>
    match bootRole (decodeCommand cw) with
    | .calibrates => calibratesFirst true rest
    | .samples => done && calibratesFirst done rest
    | .other => calibratesFirst done rest

/-- Two machines that differ only in gesture registers that are not in use: they agree in everything but `startPos`,
`startTime`, `prevPos` and `prevTime`, and in those too while Active (R27, R28, I19). -/
def SameInUse (s t : State) : Prop :=
  s.cfg = t.cfg ∧ s.port = t.port ∧ s.now = t.now ∧ s.sampler = t.sampler ∧ s.out = t.out
    ∧ s.blk.baseline = t.blk.baseline ∧ s.blk.calibrated = t.blk.calibrated
    ∧ s.blk.gstate = t.blk.gstate ∧ s.blk.lastAccept = t.blk.lastAccept
    ∧ s.blk.haveAccept = t.blk.haveAccept ∧ s.blk.err = t.blk.err
    ∧ (s.blk.gstate = .active →
        s.blk.startPos = t.blk.startPos ∧ s.blk.startTime = t.blk.startTime
          ∧ s.blk.prevPos = t.blk.prevPos ∧ s.blk.prevTime = t.blk.prevTime)

end Sys2Proof.Safety
end

