-- ==== Sys2Proof/WellFormed.lean ====
section
/-! DEFINITION. Well-formed instructions. No operand of a command is ever rejected (20_memory.md rule R59), so the
checks are those on frames: the popcount of the whole frame is odd (30_encoding.md rules R78 and R79). A read frame's
zero bits 8:0 are part of its syntax. -/

namespace Sys2Proof

/-- Odd parity over the whole word a port carries (R78). -/
def PortWord.oddParity : PortWord → Bool
  | .command cw => popcount cw % 2 == 1
  | .frame f => popcount f % 2 == 1

/-- Every command is well formed; a frame is when its popcount is odd (R79). -/
def Instr.wellFormed : Instr → Bool
  | .encw _ _ => true
  | .encr _ => true
  | .decf _ => true
  | .pkbc _ _ => true
  | .pkot _ _ => true
  | .pkct _ _ _ => true
  | .pktr _ _ _ => true
  | .cal _ _ => true
  | .spos => true
  | .poll => true
  | .rdst => true
  | .reserved0 _ _ _ => true
  | .reservedC _ _ _ => true
  | .reservedD _ _ _ => true
  | .reservedE _ _ _ => true
  | .reservedF _ _ _ => true
  | .writeFrame a p d => (encode (.writeFrame a p d)).oddParity
  | .readFrame a p => (encode (.readFrame a p)).oddParity

end Sys2Proof
end

