-- ==== Sys2Proof/Certificates/Slice0/Obligations.lean ====
section
/-! DEFINITION. The statements for the provers. A next state written `{ s with … }` leaves every field it does not
name unchanged, so it is its instruction's frame too. -/

open Sys2Proof Sys2Proof.Machine Sys2Proof.Safety

/-! ### Frame codec -/

/-- R101 (layout R76, parity R78): op code 0x1 is ENCW, its port C unused. It answers the one frame with bit 15 set,
the masked address and payload in their places and odd popcount; nothing else changes. -/
def Obligations.EncwBuildsTheWriteFrame : Prop :=
  ∀ (a b c : Operand) (s : State), decodeCommand (commandWord 0x1#4 a b c) = .encw a b ∧ ∃ f : Frame,
    exec (.encw a b) s = .next { s with out := { response := some { frame := f } } }
      ∧ f.extractLsb' 15 1 = 1#1
      ∧ f.extractLsb' 11 4 = a.extractLsb' 0 4
      ∧ f.extractLsb' 0 10 = b.extractLsb' 0 10
      ∧ popcount f % 2 = 1

/-- R102 (layout R77, parity R78): op code 0x2 is ENCR, its ports B and C unused. With the read path it answers the
one frame with bit 15 clear, the masked address, bits 8:0 zero and odd popcount; nothing else changes. -/
def Obligations.EncrBuildsTheReadFrame : Prop :=
  ∀ (a b c : Operand) (s : State), decodeCommand (commandWord 0x2#4 a b c) = .encr a ∧
    (s.cfg.hasReadPath = true → ∃ f : Frame,
      exec (.encr a) s = .next { s with out := { response := some { frame := f } } }
        ∧ f.extractLsb' 15 1 = 0#1
        ∧ f.extractLsb' 10 5 = a.extractLsb' 0 5
        ∧ f.extractLsb' 0 9 = 0#9
        ∧ popcount f % 2 = 1)

/-- R103: op code 0x3 is DECF, its ports B and C unused. What it reports of every 16-bit value, as numbers, for both
kinds of frame; every other response field is 0 and nothing else changes. -/
def Obligations.DecfReportsTheFields : Prop :=
  ∀ (f b c : Operand) (s : State), decodeCommand (commandWord 0x3#4 f b c) = .decf f ∧ ∃ r : Response,
    exec (.decf f) s = .next { s with out := { response := some r } }
      ∧ r = { dDir := r.dDir, dAddr := r.dAddr, dData := r.dData, parityOk := r.parityOk, rsvOk := r.rsvOk }
      ∧ r.dDir = f.extractLsb' 15 1
      ∧ r.parityOk.toNat = popcount f % 2
      ∧ (r.dDir = 1#1 →
          r.dAddr.toNat = f.toNat / 2 ^ 11 % 16 ∧ r.dData.toNat = f.toNat % 1024 ∧ r.rsvOk = 1#1)
      ∧ (r.dDir = 0#1 →
          r.dAddr.toNat = f.toNat / 2 ^ 10 % 32 ∧ r.dData.toNat = f.toNat % 512
            ∧ (r.rsvOk = 1#1 ↔ f.toNat % 512 = 0))

/-- Derived from R103 ("corner cases", marked derived there): DECF of an ENCW frame gives back the masked operands,
and DECF of an ENCR frame the masked address, with both checks passed. -/
def Obligations.DecfInvertsTheEncoders : Prop :=
  (∀ (a b : Operand) (s : State), ∃ f : Frame,
    exec (.encw a b) s = .next { s with out := { response := some { frame := f } } }
      ∧ ∀ u : State, exec (.decf f) u = .next { u with out := { response := some {
            dDir := 1#1, dAddr := (a.extractLsb' 0 4).setWidth 5, dData := b.extractLsb' 0 10,
            parityOk := 1#1, rsvOk := 1#1 } } })
  ∧ (∀ (a : Operand) (s : State), s.cfg.hasReadPath = true → ∃ f : Frame,
    exec (.encr a) s = .next { s with out := { response := some { frame := f } } }
      ∧ ∀ u : State, exec (.decf f) u = .next { u with out := { response := some {
            dDir := 0#1, dAddr := a.extractLsb' 0 5, dData := 0#10, parityOk := 1#1, rsvOk := 1#1 } } })

/-- Derived from R78 and R103: a frame of odd popcount with any one bit flipped is reported with `parity_ok = 0`. -/
def Obligations.DecfDetectsOneFlippedBit : Prop :=
  ∀ (f : Frame) (k : Nat) (s : State), popcount f % 2 = 1 → k < 16 → ∃ r : Response,
    exec (.decf (f ^^^ (1#16 <<< k))) s = .next { s with out := { response := some r } } ∧ r.parityOk = 0#1

/-- Derived from R79, R101 and R102: the encoders' frames are well-formed rows of the opcode table. -/
def Obligations.EncodersMakeWellFormedFrames : Prop :=
  (∀ (a b : Operand) (s : State), ∃ (f : Frame) (i : Instr),
    exec (.encw a b) s = .next { s with out := { response := some { frame := f } } }
      ∧ decode (.frame f) = .ok i ∧ i.wellFormed = true ∧ i.rowIndex = 16)
  ∧ (∀ (a : Operand) (s : State), s.cfg.hasReadPath = true → ∃ (f : Frame) (i : Instr),
    exec (.encr a) s = .next { s with out := { response := some { frame := f } } }
      ∧ decode (.frame f) = .ok i ∧ i.wellFormed = true ∧ i.rowIndex = 17)

/-! ### Payload packer -/

/-- R121 (layout R80): op code 0x4 is PKBC, its port C unused. -/
def Obligations.PkbcPacksBuckCurrent : Prop :=
  ∀ (a b c : Operand) (s : State), decodeCommand (commandWord 0x4#4 a b c) = .pkbc a b ∧ ∃ p : Payload,
    exec (.pkbc a b) s = .next { s with out := { response := some { payload := p } } }
      ∧ p.extractLsb' 8 2 = a.extractLsb' 0 2 ∧ p.extractLsb' 0 8 = b.extractLsb' 0 8

/-- R122 (layout R81): op code 0x5 is PKOT, its port C unused. -/
def Obligations.PkotPacksOffTime : Prop :=
  ∀ (a b c : Operand) (s : State), decodeCommand (commandWord 0x5#4 a b c) = .pkot a b ∧ ∃ p : Payload,
    exec (.pkot a b) s = .next { s with out := { response := some { payload := p } } }
      ∧ p.extractLsb' 5 5 = a.extractLsb' 0 5 ∧ p.extractLsb' 0 5 = b.extractLsb' 0 5

/-- R123 (layout R82): op code 0x6 is PKCT. Every bit of the payload is the OR of the fields placed on it, for every
legal FSO_SHIFT. -/
def Obligations.PkctOrsTheOverlappingFields : Prop :=
  ∀ (a b c : Operand) (s : State), decodeCommand (commandWord 0x6#4 a b c) = .pkct a b c ∧ ∃ p : Payload,
    exec (.pkct a b c) s = .next { s with out := { response := some { payload := p } } }
      ∧ ∀ j < 10, p.getLsbD j
          = ((decide (s.cfg.fsoShift ≤ j) && decide (j < s.cfg.fsoShift + 3) && a.getLsbD (j - s.cfg.fsoShift))
              || (j == 1 && b.getLsbD 0) || (j == 0 && c.getLsbD 0))

/-- R124 (layout R83): op code 0x7 is PKTR. -/
def Obligations.PktrPacksThermalRecovery : Prop :=
  ∀ (a b c : Operand) (s : State), decodeCommand (commandWord 0x7#4 a b c) = .pktr a b c ∧ ∃ p : Payload,
    exec (.pktr a b c) s = .next { s with out := { response := some { payload := p } } }
      ∧ p.extractLsb' 9 1 = a.extractLsb' 0 1 ∧ p.extractLsb' 8 1 = b.extractLsb' 0 1
      ∧ p.extractLsb' 0 8 = c.extractLsb' 0 8

/-- Derived from R51, R80 to R83, R121 to R124 and R125: each packer's payload holds its masked operands at the places
of the layout of the register it is meant for (buck control where FSO_SHIFT moves fsoMode off the enable bits). -/
def Obligations.PackedFieldsReadBackFromTheLayouts : Prop :=
  ∀ (i : Instr) (reg : DeviceRegister) (s : State), reg ∈ packedFor i →
    (reg = .buckControl → 2 ≤ s.cfg.fsoShift) → ∃ p : Payload,
      exec i s = .next { s with out := { response := some { payload := p } } }
        ∧ (∀ a b, i = .pkbc a b →
            (reg.layout s.cfg).map (fun f => (f.value p).toNat) = [a.toNat % 4, b.toNat % 256])
        ∧ (∀ a b, i = .pkot a b →
            (reg.layout s.cfg).map (fun f => (f.value p).toNat) = [a.toNat % 32, b.toNat % 32])
        ∧ (∀ a b c, i = .pkct a b c →
            (reg.layout s.cfg).map (fun f => (f.value p).toNat) = [a.toNat % 8, b.toNat % 2, c.toNat % 2])
        ∧ (∀ a b c, i = .pktr a b c →
            (reg.layout s.cfg).map (fun f => (f.value p).toNat) = [a.toNat % 2, b.toNat % 2, c.toNat % 256])

/-- R22: a codec or packer operation reads only its operands (and the static configuration) and writes no state: under
one configuration it gives every state the same response and changes nothing else. -/
def Obligations.CodecAndPackerArePure : Prop :=
  ∀ (cfg : Config) (i : Instr), isCodecOrPacker i = true → isReserved cfg i = false →
    ∃ r : Response, ∀ s : State, s.cfg = cfg → exec i s = .next { s with out := { response := some r } }

/-- R71 with the operand column of R72: what a command does depends only on the low bits of the ports that its op code
uses. -/
def Obligations.OperandBitsOutsideFieldsAreIgnored : Prop :=
  ∀ (op : BitVec 4) (a a' b b' c c' : Operand) (s : State),
    a.toNat % 2 ^ (usedBits op).1 = a'.toNat % 2 ^ (usedBits op).1 →
    b.toNat % 2 ^ (usedBits op).2.1 = b'.toNat % 2 ^ (usedBits op).2.1 →
    c.toNat % 2 ^ (usedBits op).2.2 = c'.toNat % 2 ^ (usedBits op).2.2 →
      exec (decodeCommand (commandWord op a b c)) s = exec (decodeCommand (commandWord op a' b' c')) s

/-! ### Slider estimator -/

/-- R141 (R142, R144), exact arithmetic: op code 0x8 is CAL, its port C unused. With no samples it raises BAD_OPERAND
and does nothing else. Otherwise it stores the mean of each pad's readings, taken pad-major, sets the calibration
flag, asks for a delay between two readings of one pad, answers all zero and changes nothing else. -/
def Obligations.CalStoresTheMeans : Prop :=
  ∀ (a b c : Operand) (s : State),
    decodeCommand (commandWord 0x8#4 a b c) = .cal a b
    ∧ exec (.cal 0#16 b) s
        = .next { s with blk := { s.blk with err := s.blk.err ||| 0b10#2 }, out := { response := some {} } }
    ∧ (s.cfg.numerics = .exact → a ≠ 0#16 →
        exec (.cal a b) s = .next { s with
          blk := { s.blk with
            baseline := (List.range s.cfg.padCount).map fun i =>
              (∑ k ∈ Finset.range a.toNat, (s.sampler.upcoming s.cfg (i * a.toNat + k) : ℚ)) / (a.toNat : ℚ)
            calibrated := true }
          sampler := s.sampler.advance (s.cfg.padCount * a.toNat)
          out := { response := some {}, requests := calibrationRequests s.cfg.padCount a.toNat b } })

/-- R148 (R145, R146), exact arithmetic: op code 0x9 is SPOS, its ports unused. The position sample, which SPOS
answers and an accepted POLL steps on, is the weighted centroid of the pads whose reading is below their threshold, or
no-touch when the weights sum to 0; it reads every pad once, in order. SPOS writes no state. -/
def Obligations.SposAnswersTheCentroid : Prop :=
  ∀ (a b c : Operand) (s : State), decodeCommand (commandWord 0x9#4 a b c) = .spos ∧
    (s.cfg.numerics = .exact →
      positionSample s =
        (if ∑ i ∈ Finset.range s.cfg.padCount, padWeight s i = 0 then .noTouch
          else .position ((∑ i ∈ Finset.range s.cfg.padCount, padNominal s i * padWeight s i)
                            / ∑ i ∈ Finset.range s.cfg.padCount, padWeight s i),
         { sampler := s.sampler.advance s.cfg.padCount, asked := sampleRequests s })
      ∧ exec .spos s = .next { s with
        sampler := s.sampler.advance s.cfg.padCount
        out := { requests := sampleRequests s, response := some (
          if ∑ i ∈ Finset.range s.cfg.padCount, padWeight s i = 0 then {}
            else { posValid := 1#1
                   pos := (∑ i ∈ Finset.range s.cfg.padCount, padNominal s i * padWeight s i)
                            / ∑ i ∈ Finset.range s.cfg.padCount, padWeight s i }) } })

/-- Derived from R141, R148 and D7: under every NUMERICS, CAL with a sample completes and writes only the baselines,
one for each pad, and the calibration flag; SPOS completes, reads every pad once, and writes no state. -/
def Obligations.SliderCompletesUnderEveryNumerics : Prop :=
  (∀ (a b : Operand) (s : State), a ≠ 0#16 → ∃ means : List ℚ, means.length = s.cfg.padCount
    ∧ exec (.cal a b) s = .next { s with
        blk := { s.blk with baseline := means, calibrated := true }
        sampler := s.sampler.advance (s.cfg.padCount * a.toNat)
        out := { response := some {}, requests := calibrationRequests s.cfg.padCount a.toNat b } })
  ∧ (∀ s : State, ∃ r : Response,
    exec .spos s = .next { s with
      sampler := s.sampler.advance s.cfg.padCount
      out := { requests := sampleRequests s, response := some r } }
    ∧ r = { posValid := r.posValid, pos := r.pos } ∧ (r.posValid = 0#1 → r.pos = 0))

/-- Derived from R147 (marked derived there): a position lies in [0, 1]. -/
def Obligations.PositionsLieInTheUnitInterval : Prop :=
  ∀ s : State, s.cfg.numerics = .exact → ∃ (t : State) (r : Response),
    exec .spos s = .next t ∧ t.out.response = some r ∧ 0 ≤ r.pos ∧ r.pos ≤ 1

/-- Derived from R147 and R149 (marked derived there): no-touch is answered exactly when no pad's reading is below its
threshold (strict). -/
def Obligations.NoTouchExactlyWhenNoPadCrosses : Prop :=
  ∀ s : State, s.cfg.numerics = .exact → ∃ (t : State) (r : Response),
    exec .spos s = .next t ∧ t.out.response = some r
      ∧ (r.posValid = 0#1 ↔ ∀ i < s.cfg.padCount, padThreshold s i ≤ padReading s i)

/-- Derived from R147 (marked derived there): when exactly one pad crosses, the position is its nominal position
whatever its weight. -/
def Obligations.OneCrossingPadGivesItsPosition : Prop :=
  ∀ (s : State) (i : Nat), s.cfg.numerics = .exact → i < s.cfg.padCount → padReading s i < padThreshold s i →
    (∀ j < s.cfg.padCount, j ≠ i → padThreshold s j ≤ padReading s j) → ∃ t : State,
      exec .spos s = .next t
        ∧ t.out.response = some { posValid := 1#1, pos := (i : ℚ) / ((s.cfg.padCount : ℚ) - 1) }

/-- Derived from R147 and R149 (marked derived there): when two pads alone cross with equal weight, the position is
the midpoint of their nominal positions; when every pad crosses with equal weight, it is 1/2. -/
def Obligations.EqualWeightsGiveTheMiddle : Prop :=
  (∀ (s : State) (i j : Nat), s.cfg.numerics = .exact → i < s.cfg.padCount → j < s.cfg.padCount → i ≠ j →
    0 < padWeight s i → padWeight s i = padWeight s j →
    (∀ k < s.cfg.padCount, k ≠ i → k ≠ j → padWeight s k = 0) → ∃ t : State,
      exec .spos s = .next t
        ∧ t.out.response = some { posValid := 1#1, pos := (padNominal s i + padNominal s j) / 2 })
  ∧ (∀ (s : State) (w : ℚ), s.cfg.numerics = .exact → 0 < w → (∀ i < s.cfg.padCount, padWeight s i = w) →
    ∃ t : State, exec .spos s = .next t ∧ t.out.response = some { posValid := 1#1, pos := 1 / 2 })

/-- Derived from R147 (marked derived there): the result depends on the weights only through their ratios: states
whose weights are proportional get the same answer. -/
def Obligations.PositionDependsOnWeightRatios : Prop :=
  ∀ (s u : State) (c : ℚ), s.cfg.numerics = .exact → s.cfg = u.cfg → 0 < c →
    (∀ i < s.cfg.padCount, padWeight u i = c * padWeight s i) → ∃ t v : State,
      exec .spos s = .next t ∧ exec .spos u = .next v ∧ t.out.response = v.out.response

/-- Derived from R149 (marked derived there): before any CAL (every baseline 0), and with DROP_FRACTION = 1, the
answer is no-touch whatever the readings. -/
def Obligations.NoTouchUncalibratedOrFullDrop : Prop :=
  ∀ s : State, s.cfg.numerics = .exact →
    ((∀ x ∈ s.blk.baseline, x = 0) ∨ s.cfg.dropFraction = 1) → ∃ t : State,
      exec .spos s = .next t ∧ t.out.response = some {}

/-! ### Gesture machine -/

/-- R172 (R171): a poll too early after the last accepted one takes no reading, writes no state and reports nothing. -/
def Obligations.EarlyPollIsANoOp : Prop :=
  ∀ s : State, s.blk.haveAccept = true → (s.now - s.blk.lastAccept).toNat < s.cfg.sampleIntervalMs →
    exec .poll s = .next { s with out := { response := some {} } }

/-- R171 (with the frame of R178): op code 0xA is POLL, its ports unused. A poll is accepted exactly when none has
been since reset or at least `Tint` ms have elapsed since the last accepted one. An accepted poll gives the rate
limiter NOW and reads every pad once, in order; a poll that is not leaves the block and the sampler alone. Either way
no baseline, no calibration flag and no error flag changes. -/
def Obligations.PollIsAcceptedWhenDue : Prop :=
  ∀ (x y z : Operand) (s : State), decodeCommand (commandWord 0xA#4 x y z) = .poll ∧
    ∃ (b : Block) (sampler : Sampler) (requests : List Request) (r : Response),
      exec .poll s = .next { s with
        blk := b, sampler := sampler, out := { response := some r, requests := requests } }
      ∧ (s.blk.haveAccept = false ∨ s.cfg.sampleIntervalMs ≤ (s.now - s.blk.lastAccept).toNat →
          r.accepted = 1#1 ∧ b.lastAccept = s.now ∧ b.haveAccept = true
            ∧ sampler = s.sampler.advance s.cfg.padCount ∧ requests = sampleRequests s)
      ∧ (s.blk.haveAccept = true ∧ (s.now - s.blk.lastAccept).toNat < s.cfg.sampleIntervalMs →
          r.accepted = 0#1 ∧ b = s.blk ∧ sampler = s.sampler ∧ requests = [])
      ∧ b.baseline = s.blk.baseline ∧ b.calibrated = s.blk.calibrated ∧ b.err = s.blk.err

/-- R173: an accepted poll in Idle: with no touch only the rate limiter moves; with a position the machine becomes
Active and records it; no event either way. -/
def Obligations.IdlePollStartsAGesture : Prop :=
  ∀ s : State,
    (s.blk.haveAccept = false ∨ s.cfg.sampleIntervalMs ≤ (s.now - s.blk.lastAccept).toNat) →
    s.blk.gstate = .idle →
    ((positionSample s).1 = .noTouch →
      exec .poll s = .next { s with
        blk := { s.blk with lastAccept := s.now, haveAccept := true }
        sampler := s.sampler.advance s.cfg.padCount
        out := { response := some { accepted := 1#1 }, requests := sampleRequests s } })
    ∧ (∀ x : ℚ, (positionSample s).1 = .position x →
      exec .poll s = .next { s with
        blk := { s.blk with
          lastAccept := s.now, haveAccept := true, gstate := .active
          startPos := x, startTime := s.now, prevPos := x, prevTime := s.now }
        sampler := s.sampler.advance s.cfg.padCount
        out := { response := some { accepted := 1#1 }, requests := sampleRequests s } })

/-- R174 with R176, exact arithmetic: an accepted poll in Active with a position and `dt_ms` not 0 records the sample
and reports motion when the magnitude is positive; with `dt_ms = 0` nothing changes but the rate limiter, and no event
is reported. -/
def Obligations.ActivePollReportsMotion : Prop :=
  ∀ (s : State) (x : ℚ), s.cfg.numerics = .exact →
    (s.blk.haveAccept = false ∨ s.cfg.sampleIntervalMs ≤ (s.now - s.blk.lastAccept).toNat) →
    s.blk.gstate = .active → (positionSample s).1 = .position x →
    (s.now ≠ s.blk.prevTime →
      ∀ v q m : ℚ, v = (x - s.blk.prevPos) * 1000 / ((s.now - s.blk.prevTime).toNat : ℚ) →
        q = min (|v| / s.cfg.maxVelocity) 1 → m = (if q < s.cfg.deadzone then 0 else q) →
        exec .poll s = .next { s with
          blk := { s.blk with lastAccept := s.now, haveAccept := true, prevPos := x, prevTime := s.now }
          sampler := s.sampler.advance s.cfg.padCount
          out := { requests := sampleRequests s, response := some (
            if 0 < m then { accepted := 1#1, kind := 0b01#2, dir := if 0 ≤ v then 0#1 else 1#1, mag := m }
              else { accepted := 1#1 }) } })
    ∧ (s.now = s.blk.prevTime →
        exec .poll s = .next { s with
          blk := { s.blk with lastAccept := s.now, haveAccept := true }
          sampler := s.sampler.advance s.cfg.padCount
          out := { response := some { accepted := 1#1 }, requests := sampleRequests s } })

/-- R175 with R176, exact arithmetic: an accepted poll in Active with no touch returns to Idle, keeps the gesture
registers, and reports the whole gesture when `dt_ms` is not 0 and the magnitude is positive. -/
def Obligations.ReleasePollReportsTheGesture : Prop :=
  ∀ s : State, s.cfg.numerics = .exact →
    (s.blk.haveAccept = false ∨ s.cfg.sampleIntervalMs ≤ (s.now - s.blk.lastAccept).toNat) →
    s.blk.gstate = .active → (positionSample s).1 = .noTouch →
    ∀ v q m : ℚ,
      v = (s.blk.prevPos - s.blk.startPos) * 1000 / ((s.now - s.blk.startTime).toNat : ℚ) →
      q = min (|v| / s.cfg.maxVelocity) 1 → m = (if q < s.cfg.deadzone then 0 else q) →
      exec .poll s = .next { s with
        blk := { s.blk with lastAccept := s.now, haveAccept := true, gstate := .idle }
        sampler := s.sampler.advance s.cfg.padCount
        out := { requests := sampleRequests s, response := some (
          if s.now ≠ s.blk.startTime ∧ 0 < m then
              { accepted := 1#1, kind := 0b10#2, dir := if 0 ≤ v then 0#1 else 1#1, mag := m }
            else { accepted := 1#1 }) } }

/-- Derived from R177 (marked derived there): a reported motion of a positive displacement is forward, of a negative
one backward. -/
def Obligations.MotionDirectionIsTheSign : Prop :=
  ∀ (s : State) (x : ℚ), s.cfg.numerics = .exact →
    (s.blk.haveAccept = false ∨ s.cfg.sampleIntervalMs ≤ (s.now - s.blk.lastAccept).toNat) →
    s.blk.gstate = .active → (positionSample s).1 = .position x → ∃ (t : State) (r : Response),
      exec .poll s = .next t ∧ t.out.response = some r
        ∧ (r.kind ≠ 0b00#2 → s.blk.prevPos < x → r.dir = 0#1)
        ∧ (r.kind ≠ 0b00#2 → x < s.blk.prevPos → r.dir = 1#1)
        ∧ (x = s.blk.prevPos → r.kind = 0b00#2)

/-- Derived from R75 and R85: what a POLL response can hold. Under a finite NUMERICS, that a reported magnitude is
above 0 and at most 1 rests on comparison, minimum and maximum being exact there, which is the model's choice (log
entry 7): D7 assumes nothing of them. -/
def Obligations.PollEventsAreLegal : Prop :=
  ∀ s : State, ∃ (t : State) (r : Response),
    exec .poll s = .next t ∧ t.out.response = some r ∧ EventLegal r
      ∧ r = { accepted := r.accepted, kind := r.kind, dir := r.dir, mag := r.mag }

/-- Derived from R176 ("corner cases", marked derived there, over exact arithmetic): with DEADZONE > 1 no event is ever
reported. That it holds under every NUMERICS rests on comparison, minimum and maximum being exact there, which is the
model's choice (log entry 7). -/
def Obligations.DeadzoneAboveOneSilencesEvents : Prop :=
  ∀ s : State, 1 < s.cfg.deadzone → ∃ (t : State) (r : Response),
    exec .poll s = .next t ∧ t.out.response = some r ∧ r.kind = 0b00#2 ∧ r.mag = 0

/-- Derived from R177 (R172; marked derived there): of two polls less than `Tint` ms apart, the first accepted, the
second changes nothing. -/
def Obligations.SecondPollWithinTheIntervalIsANoOp : Prop :=
  ∀ (s : State) (later : Time),
    (s.blk.haveAccept = false ∨ s.cfg.sampleIntervalMs ≤ (s.now - s.blk.lastAccept).toNat) →
    (later - s.now).toNat < s.cfg.sampleIntervalMs → ∃ t : State,
      exec .poll s = .next t
        ∧ exec .poll { t with now := later } = .next { t with now := later, out := { response := some {} } }

/-- Derived from R179 (b) (marked derived there): when `Tint > 0`, an accepted poll of an Active machine sees a
`dt_ms` equal to the elapsed time of the rate limiter, at least `Tint`; the machine's invariant rules out other
states. -/
def Obligations.ActivePollDtIsAtLeastTheInterval : Prop :=
  ∀ s : State, Inv s → 0 < s.cfg.sampleIntervalMs → s.blk.gstate = .active → pollAccepted s = true →
    s.now - s.blk.prevTime = s.now - s.blk.lastAccept
      ∧ s.cfg.sampleIntervalMs ≤ (s.now - s.blk.prevTime).toNat

/-- Derived from R171 and R180: when NOW counts real milliseconds and less than 2^32 of them have passed since the
last accepted poll, a poll is accepted exactly when `Tint` of them have passed. -/
def Obligations.AcceptanceFollowsRealTime : Prop :=
  ∀ (s : State) (before now : Nat), s.blk.haveAccept = true → s.blk.lastAccept = BitVec.ofNat 32 before →
    s.now = BitVec.ofNat 32 now → before ≤ now → now - before < 2 ^ 32 → ∃ (t : State) (r : Response),
      exec .poll s = .next t ∧ t.out.response = some r
        ∧ (r.accepted = 1#1 ↔ s.cfg.sampleIntervalMs ≤ now - before)

/-! ### Status, errors, reset -/

/-- R201 (R31): op code 0xB is RDST, its ports unused. The status word's bits; bits 15:4 are 0, and RDST writes no
state. -/
def Obligations.RdstReadsTheStatusWord : Prop :=
  ∀ (x y z : Operand) (s : State), decodeCommand (commandWord 0xB#4 x y z) = .rdst ∧ ∃ w : BitVec 16,
    exec .rdst s = .next { s with out := { response := some { status := w } } }
      ∧ w.getLsbD 0 = s.blk.calibrated
      ∧ w.getLsbD 1 = decide (s.blk.gstate = .active)
      ∧ w.getLsbD 2 = s.blk.err.getLsbD 0
      ∧ w.getLsbD 3 = s.blk.err.getLsbD 1
      ∧ ∀ k, 4 ≤ k → w.getLsbD k = false

/-- R202, R73, R203: op codes 0x0 and 0xC to 0xF, and 0x2 without the read path, are the reserved ones; each sets
ILLEGAL_CMD, whatever its operands, answers all zero, takes no pad reading and changes nothing else. Every other
command completes and leaves the ILLEGAL_CMD bit as it was. -/
def Obligations.ReservedCodesRaiseIllegalCmd : Prop :=
  (∀ (op : BitVec 4) (a b c : Operand) (cfg : Config),
    isReserved cfg (decodeCommand (commandWord op a b c)) = true
      ↔ op.toNat = 0 ∨ 0xC ≤ op.toNat ∨ (op.toNat = 2 ∧ cfg.hasReadPath = false))
  ∧ (∀ (a b c : Operand) (s t : State),
    t = { s with blk := { s.blk with err := s.blk.err ||| 0b01#2 }, out := { response := some {} } } →
    exec (.reserved0 a b c) s = .next t ∧ exec (.reservedC a b c) s = .next t
      ∧ exec (.reservedD a b c) s = .next t ∧ exec (.reservedE a b c) s = .next t
      ∧ exec (.reservedF a b c) s = .next t
      ∧ (s.cfg.hasReadPath = false → exec (.encr a) s = .next t))
  ∧ (∀ (cw : CommandWord) (s : State), isReserved s.cfg (decodeCommand cw) = false → ∃ t : State,
    exec (decodeCommand cw) s = .next t ∧ t.blk.err.getLsbD 0 = s.blk.err.getLsbD 0)

/-- R210: no operation stops, redirects or aborts the command stream: every command word answers a next state from
every state and leaves the events still to come as they are; so a step whose oldest event is a command takes that
event and no other. The two frame rows are no operations of R72 (log entry 5); `Obligations.FramesGoOutMsbFirst`
speaks of them. -/
def Obligations.NoOperationStops : Prop :=
  (∀ (cw : CommandWord) (s : State), ∃ t : State, exec (decodeCommand cw) s = .next t ∧ t.port = s.port)
  ∧ (∀ (now : Time) (cw : CommandWord) (rest : List PortEvent) (s : State), s.port = .command now cw :: rest →
    ∃ t : State, step s = .next t ∧ t.port = rest)

/-- R212 (R213): the error flags after a step are those before it, with bit 0 set if the step ran a reserved command,
bit 1 set if it ran CAL with no samples; a frame on the bus and a step with no event leave them. -/
def Obligations.OnlyTheListedConditionsRaise : Prop :=
  ∀ s : State,
    (∀ (now : Time) (cw : CommandWord) (rest : List PortEvent), s.port = .command now cw :: rest →
      ∃ t : State, step s = .next t ∧ t.blk.err = errAfter s.cfg (decodeCommand cw) s.blk.err)
    ∧ (∀ (f : Frame) (rest : List PortEvent), s.port = .frame f :: rest →
      ∃ t : State, step s = .next t ∧ t.blk.err = s.blk.err)
    ∧ (∀ t : State, s.port = [] → step s = .next t → t.blk.err = s.blk.err)

/-- Derived from R30 and R25: along every run with no reset input, a set error flag stays set and a set calibration
flag stays set. -/
def Obligations.FlagsStaySetUntilReset : Prop :=
  ∀ (k : Nat) (s t : State), PortEvent.reset ∉ s.port → Host.Core.run Sys2Proof.core k s = .next t →
    (∀ j, s.blk.err.getLsbD j = true → t.blk.err.getLsbD j = true)
      ∧ (s.blk.calibrated = true → t.blk.calibrated = true)

/-- Derived from R24 to R29: in a step, only the reset input and a CAL with a sample change a baseline or the
calibration flag; only the reset input and an accepted POLL change the gesture mode, positions and times and the rate
limiter. -/
def Obligations.OnlyTheNamedCommandsWriteTheBlock : Prop :=
  ∀ s t : State, step s = .next t →
    ((t.blk.baseline ≠ s.blk.baseline ∨ t.blk.calibrated ≠ s.blk.calibrated) →
      s.port.head? = some .reset
      ∨ ∃ now cw a b, s.port.head? = some (.command now cw) ∧ decodeCommand cw = .cal a b ∧ a ≠ 0#16)
    ∧ ((t.blk.gstate ≠ s.blk.gstate ∨ t.blk.startPos ≠ s.blk.startPos ∨ t.blk.prevPos ≠ s.blk.prevPos
        ∨ t.blk.startTime ≠ s.blk.startTime ∨ t.blk.prevTime ≠ s.blk.prevTime
        ∨ t.blk.lastAccept ≠ s.blk.lastAccept ∨ t.blk.haveAccept ≠ s.blk.haveAccept) →
      s.port.head? = some .reset
      ∨ ∃ now cw, s.port.head? = some (.command now cw) ∧ decodeCommand cw = .poll
          ∧ (s.blk.haveAccept = false ∨ s.cfg.sampleIntervalMs ≤ (now - s.blk.lastAccept).toNat))

/-- R231 (R230, R33): the reset input puts every field of the block in its reset value and leaves the configuration
and the events still to come; no other step clears an error flag or the calibration flag. -/
def Obligations.ResetInputRestoresTheBlock : Prop :=
  (∀ (s : State) (rest : List PortEvent), s.port = .reset :: rest →
    step s = .next { s with
      port := rest
      out := {}
      blk :=
        { baseline := List.replicate s.cfg.padCount 0, calibrated := false, gstate := .idle
          startPos := 0, prevPos := 0, startTime := 0#32, prevTime := 0#32
          lastAccept := 0#32, haveAccept := false, err := 0#2 } })
  ∧ (∀ (s t : State) (j : Nat), step s = .next t →
      (s.blk.err.getLsbD j = true ∧ t.blk.err.getLsbD j = false)
        ∨ (s.blk.calibrated = true ∧ t.blk.calibrated = false) →
      s.port.head? = some .reset)

/-- R230 (R33): after reset, under every configuration, the block's fields hold their reset values and RDST answers
0x0000. -/
def Obligations.ResetStateReadsStatusZero : Prop :=
  ∀ cfg : Config,
    (State.resetWith cfg).blk =
      { baseline := List.replicate cfg.padCount 0, calibrated := false, gstate := .idle
        startPos := 0, prevPos := 0, startTime := 0#32, prevTime := 0#32
        lastAccept := 0#32, haveAccept := false, err := 0#2 }
    ∧ exec .rdst (State.resetWith cfg)
        = .next { State.resetWith cfg with out := { response := some { status := 0x0000#16 } } }

/-- R7: parameters are refused exactly when a legal range of R6 is broken. -/
def Obligations.IllegalParametersAreRefused : Prop :=
  ∀ p : Params, Config.ofParams p = none ↔
    ¬ (2 ≤ p.maxPads ∧ 2 ≤ p.padCount ∧ p.padCount ≤ p.maxPads ∧ 1 ≤ p.readingWidth
        ∧ 0 ≤ p.dropFraction ∧ p.dropFraction ≤ 1 ∧ p.sampleIntervalMs < 2 ^ 32
        ∧ 0 < p.maxVelocity ∧ 0 ≤ p.deadzone ∧ p.fsoShift ≤ 7)

/-! ### Serial bus -/

/-- Derived from R54, R76, R77 and R61, with a frame row's meaning as log entry 5 puts it (the model's choice): the
bits a frame puts on the wire, bit 15 first and bit 0 last, so direction, address, parity and payload (or nine zeros),
each most significant bit first; the block's state does not change. A step that moves any frame, one with no row in the
table too (log entry 9), puts its 16 bits on the wire so. -/
def Obligations.FramesGoOutMsbFirst : Prop :=
  (∀ (address : BitVec 4) (parity : BitVec 1) (payload : Payload) (s : State), ∃ wire : List WireEvent,
    exec (.writeFrame address parity payload) s = .next { s with out := { wire := wire } }
      ∧ wire.filterMap movedBit
          = true :: ([3, 2, 1, 0].map address.getLsbD ++ [parity.getLsbD 0]
              ++ [9, 8, 7, 6, 5, 4, 3, 2, 1, 0].map payload.getLsbD))
  ∧ (∀ (address : BitVec 5) (parity : BitVec 1) (s : State), ∃ wire : List WireEvent,
    exec (.readFrame address parity) s = .next { s with out := { wire := wire } }
      ∧ wire.filterMap movedBit
          = false :: ([4, 3, 2, 1, 0].map address.getLsbD ++ [parity.getLsbD 0] ++ List.replicate 9 false))
  ∧ (∀ (f : Frame) (rest : List PortEvent) (s : State), s.port = .frame f :: rest → ∃ wire : List WireEvent,
    step s = .next { s with port := rest, out := { wire := wire } }
      ∧ wire.filterMap movedBit = [15, 14, 13, 12, 11, 10, 9, 8, 7, 6, 5, 4, 3, 2, 1, 0].map f.getLsbD)

/-- Derived from R60, with the settle delays where log entry 6 puts them (the model's choice): every transfer is one
bracket of select, settle, the 16 bits, settle, deselect, with no other bus event inside; a step moves every frame so,
one with no row in the table too (log entry 9). -/
def Obligations.TransfersAreBracketed : Prop :=
  (∀ (f : Frame) (i : Instr) (s : State), decode (.frame f) = .ok i → ∃ bits : List Bool, bits.length = 16 ∧
    exec i s = .next { s with out := { wire :=
      .select :: .settle :: (bits.map .bit ++ [.settle, .deselect]) } })
  ∧ (∀ (f : Frame) (rest : List PortEvent) (s : State), s.port = .frame f :: rest →
    ∃ bits : List Bool, bits.length = 16 ∧ step s = .next { s with port := rest, out := { wire :=
      .select :: .settle :: (bits.map .bit ++ [.settle, .deselect]) } })

/-- Derived from R58 (marked derived there): a frame split into bytes has bits 15:8 first; the two bytes decode as the
frame, and no other number of bytes is a frame. -/
def Obligations.FrameBytesAreHighByteFirst : Prop :=
  (∀ f : Frame, (frameBytes f).map BitVec.toNat = [f.toNat / 256, f.toNat % 256]
    ∧ decodeFrameBytes (frameBytes f) = decode (.frame f))
  ∧ ∀ bytes : List Byte, bytes.length ≠ 2 → decodeFrameBytes bytes = .error .notTwoBytes

/-! ### Decoding and the step -/

/-- Derived from R70, R72, R76, R77 and R87, for all rows: decoding the encoding of any instruction gives it back,
every operand at every value. -/
def Obligations.DecodeOfEncode : Prop :=
  ∀ i : Instr, decode (encode i) = .ok i

/-- Derived from R74 (marked derived there), R72 and R73: a port word matches exactly the opcode-table row of the
instruction it decodes to, and a word that does not decode (a bus word only) matches none: no two rows overlap, and
every command word is in one. -/
def Obligations.DecodingFollowsTheTable : Prop :=
  ∀ w : PortWord,
    (∀ i : Instr, decode w = .ok i →
      ∀ (k : Nat) (row : OpRow), opTable[k]? = some row → (row.matches w = true ↔ k = i.rowIndex))
    ∧ (∀ e : DecodeError, decode w = .error e →
      (∀ row ∈ opTable, row.matches w = false) ∧ ∀ cw : CommandWord, w ≠ .command cw)

/-- Derived from R87 (marked derived there): the command word of an op code and three naturals as operands, as a sum. -/
def Obligations.CommandWordFormula : Prop :=
  ∀ (op : BitVec 4) (a b c : Nat),
    (commandWord op (operand a) (operand b) (operand c)).toNat
      = op.toNat * 2 ^ 48 + c % 2 ^ 16 * 2 ^ 32 + b % 2 ^ 16 * 2 ^ 16 + a % 2 ^ 16

/-- Derived: words written out from the spec's encodings (R70, R72, R76, R77) decode to what they stand for. -/
def Obligations.WrittenOutWordsDecode : Prop :=
  decode (.command 0x1000000030004#52) = .ok (.encw 4 3)
    ∧ decode (.command 0x6000100010000#52) = .ok (.pkct 0 1 1)
    ∧ decode (.command 0x8000000050002#52) = .ok (.cal 2 5)
    ∧ decode (.command 0xA000000000000#52) = .ok .poll
    ∧ decode (.command 0xB000000000000#52) = .ok .rdst
    ∧ decode (.command 0xF000000001234#52) = .ok (.reservedF 0x1234 0 0)
    ∧ decode (.frame 0b1010010000000011#16) = .ok (.writeFrame 4 1 3)
    ∧ decode (.frame 0b0111110000000000#16) = .ok (.readFrame 31 0)

/-- Derived from R62 and R57; the queue of events is the model's choice (log entry 8): a step takes the oldest event.
A command runs as its decoded instruction with NOW as presented; a bus word that decodes runs as its frame row; one
that does not is moved on the bus like it, select, settle, bits from bit 15 down, settle, deselect (log entries 6 and
9). With no event the block holds its state unchanged (R222), and the model keeps the last output too (its choice, log
entry 8). -/
def Obligations.StepRunsTheDecodedInstruction : Prop :=
  ∀ (s : State) (rest : List PortEvent),
    (∀ (now : Time) (cw : CommandWord) (i : Instr), s.port = .command now cw :: rest →
      decode (.command cw) = .ok i → step s = exec i { s with port := rest, now := now })
    ∧ (∀ (f : Frame) (i : Instr), s.port = .frame f :: rest → decode (.frame f) = .ok i →
      step s = exec i { s with port := rest })
    ∧ (∀ (f : Frame) (e : DecodeError), s.port = .frame f :: rest → decode (.frame f) = .error e →
      step s = .next { s with port := rest, out := { wire := [.select, .settle] ++
        ([15, 14, 13, 12, 11, 10, 9, 8, 7, 6, 5, 4, 3, 2, 1, 0].map fun k => .bit (f.getLsbD k))
          ++ [.settle, .deselect] } })
    ∧ (s.port = [] → step s = .next s)

/-! ### Whole-machine rules -/

/-- Derived from R24 and R179: every step keeps the invariant. -/
def Obligations.StepKeepsInv : Prop :=
  ∀ s t : State, Inv s → step s = .next t → Inv t

/-- Derived from R24, R27, R149 and R178: every step keeps the invariant of exact arithmetic. -/
def Obligations.StepKeepsExactInv : Prop :=
  ∀ s t : State, ExactInv s → step s = .next t → ExactInv t

/-- Derived from R230: the invariants hold after reset: the first under every configuration, the second under every
exact one. -/
def Obligations.ResetHasTheInvariants : Prop :=
  ∀ cfg : Config, Inv (State.resetWith cfg)
    ∧ (cfg.numerics = .exact → ExactInv (State.resetWith cfg))

/-- Derived from R6 and R23: no step changes the configuration, and what the last output was changes no instruction's
result. -/
def Obligations.ConfigurationIsStaticAndOutputUnread : Prop :=
  (∀ s t : State, step s = .next t → t.cfg = s.cfg)
    ∧ ∀ (i : Instr) (s : State) (o : Output), exec i { s with out := o } = exec i s

/-- Derived from R57: only POLL uses NOW: any other instruction does the same at another NOW. -/
def Obligations.OnlyPollReadsNow : Prop :=
  ∀ (i : Instr) (s t : State) (now : Time), i ≠ .poll → exec i s = .next t →
    exec i { s with now := now } = .next { t with now := now }

/-- Derived from R27 and R28: while Idle the gesture registers are read by no rule: machines that differ only in
registers not in use take the same steps, with the same outputs, to machines that again differ only so. -/
def Obligations.IdleGestureRegistersAreUnread : Prop :=
  ∀ s t s' : State, SameInUse s t → step s = .next s' → ∃ t' : State, step t = .next t' ∧ SameInUse s' t'

/-- Derived from R232 and R234: a host that calibrates first keeps doing so along every step, and each SPOS and POLL
it issues finds the block calibrated. -/
def Obligations.BootOrderMeansCalibrated : Prop :=
  ∀ s t : State, calibratesFirst s.blk.calibrated s.port = true → step s = .next t →
    calibratesFirst t.blk.calibrated t.port = true
      ∧ ∀ now cw rest, s.port = .command now cw :: rest → bootRole (decodeCommand cw) = .samples →
          s.blk.calibrated = true

/-- Derived from R210, R61, R222 and R231, with a frame's transfer as log entries 5 and 9 put it (the model's choice):
every step answers a next state; and it takes exactly the oldest event, or none where there is none. -/
def Obligations.EveryStepAnswersANextState : Prop :=
  ∀ s : State, ∃ t : State, step s = .next t ∧ t.port = s.port.tail
end

