-- ==== Sys2Proof/Laws/Bits.lean ====
section
/-! SUPPORT. Popcount and parity, and the bits of masked and placed fields. -/

namespace Sys2Proof.Laws

open Sys2Proof.Machine

/-! ### Popcount -/

theorem onesBelow_or_add_and (x y k : Nat) :
    onesBelow (x ||| y) k + onesBelow (x &&& y) k = onesBelow x k + onesBelow y k := by
  induction k with
  | zero => rfl
  | succ k ih =>
    simp only [onesBelow, Nat.testBit_or, Nat.testBit_and]
    cases x.testBit k <;> cases y.testBit k <;> simp <;> omega

theorem onesBelow_xor_add_and (x y k : Nat) :
    onesBelow (x ^^^ y) k + 2 * onesBelow (x &&& y) k = onesBelow x k + onesBelow y k := by
  induction k with
  | zero => rfl
  | succ k ih =>
    simp only [onesBelow, Nat.testBit_xor, Nat.testBit_and]
    cases x.testBit k <;> cases y.testBit k <;> simp <;> omega

theorem onesBelow_zero (k : Nat) : onesBelow 0 k = 0 := by
  induction k with
  | zero => rfl
  | succ k ih => simp [onesBelow, ih]

theorem popcount_or_of_disjoint {w : Nat} (x y : BitVec w) (h : x &&& y = 0) :
    popcount (x ||| y) = popcount x + popcount y := by
  have hand : x.toNat &&& y.toNat = 0 := by simpa using congrArg BitVec.toNat h
  have := onesBelow_or_add_and x.toNat y.toNat w
  rw [hand, onesBelow_zero] at this
  simpa [popcount] using this

theorem popcount_xor_parity {w : Nat} (x y : BitVec w) :
    popcount (x ^^^ y) % 2 = (popcount x + popcount y) % 2 := by
  have := onesBelow_xor_add_and x.toNat y.toNat w
  simp only [popcount, BitVec.toNat_xor]
  omega

theorem popcount_oneBit {k : Nat} (h : k < 16) : popcount (1#16 <<< k) = 1 := by
  interval_cases k <;> rfl

theorem and_oneBit_eq_zero {f0 : Frame} {k : Nat} (h : f0.getLsbD k = false) : f0 &&& (1#16 <<< k) = 0 := by
  apply BitVec.eq_of_getLsbD_eq
  intro i _
  by_cases hik : i = k
  · subst hik
    simp [h]
  · simp [BitVec.getLsbD_shiftLeft]
    intro _ _ _
    omega

/-! ### The parity bit (R78, R100) -/

theorem oddParityBit_eq (f0 : Frame) : oddParityBit f0 = if popcount f0 % 2 = 0 then 1#16 else 0#16 := by
  unfold oddParityBit
  obtain h | h := Nat.mod_two_eq_zero_or_one (popcount f0) <;> simp [h]

/-- The parity bit makes the popcount odd. -/
theorem popcount_with_parity {f0 : Frame} {k : Nat} (hk : k < 16) (h : f0.getLsbD k = false) :
    popcount (f0 ||| (oddParityBit f0 <<< k)) % 2 = 1 := by
  rw [oddParityBit_eq]
  split
  · rw [popcount_or_of_disjoint _ _ (and_oneBit_eq_zero h), popcount_oneBit hk]
    omega
  · simp
    omega

/-- The parity bit touches no other bit. -/
theorem getLsbD_with_parity {f0 : Frame} {k j : Nat} (hj : j ≠ k) :
    (f0 ||| (oddParityBit f0 <<< k)).getLsbD j = f0.getLsbD j := by
  rw [oddParityBit_eq]
  split
  · simp only [BitVec.getLsbD_or, BitVec.getLsbD_shiftLeft, BitVec.getLsbD_one]
    have : (decide (j - k = 0) && !decide (j < k)) = false := by
      simp
      omega
    simp_all
    omega
  · simp

/-! ### Masked and placed fields (R10, R120) -/

theorem getLsbD_mask (w j : Nat) (v : Operand) :
    (mask w v).getLsbD j = (decide (j < 16) && decide (j < w) && v.getLsbD j) := by
  simp [mask, BitVec.getLsbD_setWidth, Bool.and_assoc]

theorem getElem_mask (w j : Nat) (v : Operand) (h : j < 16) : (mask w v)[j] = (decide (j < w) && v[j]) := by
  rw [← BitVec.getLsbD_eq_getElem, getLsbD_mask]
  simp [h]

theorem getLsbD_placeField (w lo j : Nat) (v : Operand) :
    (placeField w lo v).getLsbD j
      = (decide (j < 10) && decide (lo ≤ j) && decide (j < lo + w) && v.getLsbD (j - lo)) := by
  simp only [placeField, BitVec.getLsbD_shiftLeft, BitVec.getLsbD_setWidth]
  by_cases h1 : j < 10
  · by_cases h2 : lo ≤ j
    · have e : (j < lo + w) = (j - lo < w) := by
        simp
        omega
      have e3 : j - lo < 10 := by omega
      simp [h1, h2, e, e3]
    · simp [h2]
  · simp [h1]

theorem setWidth_congr {w : Nat} {v v' : Operand} (h : v.toNat % 2 ^ w = v'.toNat % 2 ^ w) :
    v.setWidth w = v'.setWidth w := by
  rw [← BitVec.toNat_inj]
  simpa using h

theorem mask_congr {w : Nat} {v v' : Operand} (h : v.toNat % 2 ^ w = v'.toNat % 2 ^ w) : mask w v = mask w v' := by
  simp [mask, setWidth_congr h]

theorem placeField_congr {w lo : Nat} {v v' : Operand} (h : v.toNat % 2 ^ w = v'.toNat % 2 ^ w) :
    placeField w lo v = placeField w lo v' := by
  simp [placeField, setWidth_congr h]

/-! ### Extracted fields -/

theorem extract_eq {n m : Nat} {v : BitVec n} {w : BitVec m} {lo lo' len : Nat}
    (h : ∀ i < len, v.getLsbD (lo + i) = w.getLsbD (lo' + i)) : v.extractLsb' lo len = w.extractLsb' lo' len := by
  apply BitVec.eq_of_getLsbD_eq
  intro i hi
  simp [hi, h i hi]

theorem extract_low_toNat {n : Nat} (v : BitVec n) (len : Nat) : (v.extractLsb' 0 len).toNat = v.toNat % 2 ^ len := by
  simp [BitVec.extractLsb'_toNat]

theorem oneBit_eq_zero_of_ne_one {x : BitVec 1} (h : x ≠ 1#1) : x = 0#1 :=
  (BitVec.eq_zero_or_eq_one x).resolve_right h

end Sys2Proof.Laws
end

