-- ==== Sys2Proof/Laws/Codec.lean ====
section
/-! SUPPORT. The bits and the parity of the frames that ENCW and ENCR build (40_frame_codec.md rules R101, R102,
R104). -/

namespace Sys2Proof.Laws

open Sys2Proof.Machine

theorem writeFrameOf_getLsbD {a b : Operand} {j : Nat} (hj : j ≠ 10) (h : j < 16) :
    (writeFrameOf a b).getLsbD j
      = if j < 10 then b.getLsbD j else if j < 15 then a.getLsbD (j - 11) else true := by
  unfold writeFrameOf
  rw [getLsbD_with_parity hj]
  interval_cases j <;> simp_all [getElem_mask]

theorem writeFrameOf_odd (a b : Operand) : popcount (writeFrameOf a b) % 2 = 1 :=
  popcount_with_parity (by omega) (by simp [getElem_mask])

theorem readFrameOf_getLsbD {a : Operand} {j : Nat} (hj : j ≠ 9) (h : j < 16) :
    (readFrameOf a).getLsbD j = if j < 10 then false else if j < 15 then a.getLsbD (j - 10) else false := by
  unfold readFrameOf
  rw [getLsbD_with_parity hj]
  interval_cases j <;> simp_all [getElem_mask]

theorem readFrameOf_odd (a : Operand) : popcount (readFrameOf a) % 2 = 1 :=
  popcount_with_parity (by omega) (by simp [getElem_mask])

/-- A frame is its write-frame fields side by side (R76). -/
theorem append_writeFields (f : Frame) :
    f.extractLsb' 15 1 ++ f.extractLsb' 11 4 ++ f.extractLsb' 10 1 ++ f.extractLsb' 0 10 = f := by
  apply BitVec.eq_of_getLsbD_eq
  intro i hi
  simp only [BitVec.getLsbD_append, BitVec.getLsbD_extractLsb']
  interval_cases i <;> simp

/-- A frame is its read-frame fields side by side (R77). -/
theorem append_readFields (f : Frame) :
    f.extractLsb' 15 1 ++ f.extractLsb' 10 5 ++ f.extractLsb' 9 1 ++ f.extractLsb' 0 9 = f := by
  apply BitVec.eq_of_getLsbD_eq
  intro i hi
  simp only [BitVec.getLsbD_append, BitVec.getLsbD_extractLsb']
  interval_cases i <;> simp

end Sys2Proof.Laws
end

