-- ==== Sys2Proof/Laws/Decode.lean ====
section
/-! SUPPORT. The fields of encoded words, and the opcode table's masks on them (30_encoding.md rules R70, R76, R77). -/

namespace Sys2Proof.Laws

section CommandFields

variable (op : BitVec 4) (a b c : Operand)

@[simp] theorem commandWord_op : (commandWord op a b c).extractLsb' 48 4 = op := by
  apply BitVec.eq_of_getLsbD_eq
  intro i hi
  simp only [commandWord, BitVec.getLsbD_append, BitVec.getLsbD_extractLsb']
  interval_cases i <;> simp

@[simp] theorem commandWord_a : (commandWord op a b c).extractLsb' 0 16 = a := by
  apply BitVec.eq_of_getLsbD_eq
  intro i hi
  simp only [commandWord, BitVec.getLsbD_append, BitVec.getLsbD_extractLsb']
  interval_cases i <;> simp

@[simp] theorem commandWord_b : (commandWord op a b c).extractLsb' 16 16 = b := by
  apply BitVec.eq_of_getLsbD_eq
  intro i hi
  simp only [commandWord, BitVec.getLsbD_append, BitVec.getLsbD_extractLsb']
  interval_cases i <;> simp

@[simp] theorem commandWord_c : (commandWord op a b c).extractLsb' 32 16 = c := by
  apply BitVec.eq_of_getLsbD_eq
  intro i hi
  simp only [commandWord, BitVec.getLsbD_append, BitVec.getLsbD_extractLsb']
  interval_cases i <;> simp

end CommandFields

/-- The fields of a write frame (R76). -/
theorem writeFrame_fields (a : BitVec 4) (p : BitVec 1) (d : Payload) {f : Frame} (h : f = 1#1 ++ a ++ p ++ d) :
    f.extractLsb' 15 1 = 1#1 ∧ f.extractLsb' 11 4 = a ∧ f.extractLsb' 10 1 = p ∧ f.extractLsb' 0 10 = d := by
  subst h
  refine ⟨?_, ?_, ?_, ?_⟩ <;>
  · apply BitVec.eq_of_getLsbD_eq
    intro i hi
    simp only [BitVec.getLsbD_append, BitVec.getLsbD_extractLsb']
    interval_cases i <;> simp

/-- The fields of a read frame (R77). -/
theorem readFrame_fields (a : BitVec 5) (p : BitVec 1) {f : Frame} (h : f = 0#1 ++ a ++ p ++ 0#9) :
    f.extractLsb' 15 1 = 0#1 ∧ f.extractLsb' 10 5 = a ∧ f.extractLsb' 9 1 = p ∧ f.extractLsb' 0 9 = 0#9 := by
  subst h
  refine ⟨?_, ?_, ?_, ?_⟩ <;>
  · apply BitVec.eq_of_getLsbD_eq
    intro i hi
    simp only [BitVec.getLsbD_append, BitVec.getLsbD_extractLsb']
    interval_cases i <;> simp

/-- A frame decodes to a frame row only. -/
theorem decodeFrame_ok {f : Frame} {i : Instr} (h : decodeFrame f = .ok i) :
    (∃ a p d, i = .writeFrame a p d) ∨ ∃ a p, i = .readFrame a p := by
  unfold decodeFrame at h
  split at h
  · cases h
    exact .inl ⟨_, _, _, rfl⟩
  · split at h
    · cases h
      exact .inr ⟨_, _, rfl⟩
    · cases h

/-! ### The table's masks -/

/-- The mask of the command rows keeps the op code. -/
theorem command_mask (cw : CommandWord) :
    cw.toNat &&& 0xf000000000000 = (cw.extractLsb' 48 4).toNat * 2 ^ 48 := by
  have h1 : cw.toNat &&& 0xf000000000000 = (cw &&& 0xf000000000000#52).toNat := by simp
  have h2 : cw &&& 0xf000000000000#52 = ((cw.extractLsb' 48 4).setWidth 52) <<< 48 := by
    apply BitVec.eq_of_getLsbD_eq
    intro i hi
    rw [BitVec.getLsbD_and, BitVec.getLsbD_shiftLeft, BitVec.getLsbD_setWidth, BitVec.getLsbD_extractLsb']
    interval_cases i <;> simp
  have := (cw.extractLsb' 48 4).isLt
  rw [h1, h2, BitVec.toNat_shiftLeft, BitVec.toNat_setWidth, Nat.shiftLeft_eq]
  omega

/-- The mask of WRITE_FRAME keeps bit 15. -/
theorem writeFrame_mask (f : Frame) : f.toNat &&& 0x8000 = (f.extractLsb' 15 1).toNat * 2 ^ 15 := by
  have h1 : f.toNat &&& 0x8000 = (f &&& 0x8000#16).toNat := by simp
  have h2 : f &&& 0x8000#16 = ((f.extractLsb' 15 1).setWidth 16) <<< 15 := by
    apply BitVec.eq_of_getLsbD_eq
    intro i hi
    rw [BitVec.getLsbD_and, BitVec.getLsbD_shiftLeft, BitVec.getLsbD_setWidth, BitVec.getLsbD_extractLsb']
    interval_cases i <;> simp
  have := (f.extractLsb' 15 1).isLt
  rw [h1, h2, BitVec.toNat_shiftLeft, BitVec.toNat_setWidth, Nat.shiftLeft_eq]
  omega

/-- The mask of READ_FRAME keeps bit 15 and bits 8:0. -/
theorem readFrame_mask (f : Frame) :
    f.toNat &&& 0x81ff = (f.extractLsb' 15 1).toNat * 2 ^ 15 + (f.extractLsb' 0 9).toNat := by
  have h1 : f.toNat &&& 0x81ff = (f &&& 0x81ff#16).toNat := by simp
  have h2 : f &&& 0x81ff#16 = (f.extractLsb' 15 1 ++ 0#6 ++ f.extractLsb' 0 9 : BitVec 16) := by
    apply BitVec.eq_of_getLsbD_eq
    intro i hi
    rw [BitVec.getLsbD_and]
    simp only [BitVec.getLsbD_append, BitVec.getLsbD_extractLsb']
    interval_cases i <;> simp
  have h3 : ((f.extractLsb' 15 1 ++ 0#6) ++ f.extractLsb' 0 9 : BitVec 16).toNat
      = (f.extractLsb' 15 1).toNat * 2 ^ 15 + (f.extractLsb' 0 9).toNat := by
    have := (f.extractLsb' 0 9).isLt
    rw [BitVec.toNat_append, BitVec.toNat_append, ← Nat.shiftLeft_add_eq_or_of_lt this,
      ← Nat.shiftLeft_add_eq_or_of_lt (by simp), Nat.shiftLeft_eq, Nat.shiftLeft_eq]
    simp
    omega
  rw [h1, h2]
  exact h3

/-- The table's row of an op code (R72). -/
def opRowIndex (op : BitVec 4) : Nat := [11, 0, 1, 2, 3, 4, 5, 6, 7, 8, 9, 10, 12, 13, 14, 15].getD op.toNat 0

theorem rowIndex_decodeCommand (cw : CommandWord) :
    (decodeCommand cw).rowIndex = opRowIndex (cw.extractLsb' 48 4) := by
  unfold decodeCommand
  generalize cw.extractLsb' 48 4 = op
  obtain ⟨n, rfl, hlt⟩ : ∃ n, op = BitVec.ofNat 4 n ∧ n < 16 := ⟨op.toNat, by simp, op.isLt⟩
  interval_cases n <;> rfl

end Sys2Proof.Laws
end

