-- ==== Sys2Proof/Laws/State.lean ====
section
/-! SUPPORT. One lemma per field per update, and what a legal configuration gives. -/

namespace Sys2Proof.Laws

open Sys2Proof.Machine

section Updates

variable (r : Response) (e : ErrorFlag) (c : Collab) (f : Frame) (now : Time) (b : Block) (s : State)

@[simp] theorem respond_cfg : (respond r s).cfg = s.cfg := rfl
@[simp] theorem respond_blk : (respond r s).blk = s.blk := rfl
@[simp] theorem respond_port : (respond r s).port = s.port := rfl
@[simp] theorem respond_now : (respond r s).now = s.now := rfl
@[simp] theorem respond_sampler : (respond r s).sampler = s.sampler := rfl
@[simp] theorem respond_out : (respond r s).out = { response := some r } := rfl

@[simp] theorem raise_cfg : (raise e s).cfg = s.cfg := rfl
@[simp] theorem raise_blk : (raise e s).blk = { s.blk with err := s.blk.err ||| e.bit } := rfl
@[simp] theorem raise_port : (raise e s).port = s.port := rfl
@[simp] theorem raise_now : (raise e s).now = s.now := rfl
@[simp] theorem raise_sampler : (raise e s).sampler = s.sampler := rfl
@[simp] theorem raise_out : (raise e s).out = { response := some {} } := rfl

@[simp] theorem respondAfter_cfg : (respondAfter r c s).cfg = s.cfg := rfl
@[simp] theorem respondAfter_blk : (respondAfter r c s).blk = s.blk := rfl
@[simp] theorem respondAfter_port : (respondAfter r c s).port = s.port := rfl
@[simp] theorem respondAfter_now : (respondAfter r c s).now = s.now := rfl
@[simp] theorem respondAfter_sampler : (respondAfter r c s).sampler = c.sampler := rfl
@[simp] theorem respondAfter_out :
    (respondAfter r c s).out = { response := some r, requests := c.asked } := rfl

@[simp] theorem transfer_cfg : (transfer f s).cfg = s.cfg := rfl
@[simp] theorem transfer_blk : (transfer f s).blk = s.blk := rfl
@[simp] theorem transfer_port : (transfer f s).port = s.port := rfl
@[simp] theorem transfer_now : (transfer f s).now = s.now := rfl
@[simp] theorem transfer_sampler : (transfer f s).sampler = s.sampler := rfl
@[simp] theorem transfer_out : (transfer f s).out = { wire := transferEvents f } := rfl

@[simp] theorem applyReset_cfg : (applyReset s).cfg = s.cfg := rfl
@[simp] theorem applyReset_blk : (applyReset s).blk = Block.reset s.cfg := rfl
@[simp] theorem applyReset_port : (applyReset s).port = s.port := rfl
@[simp] theorem applyReset_now : (applyReset s).now = s.now := rfl
@[simp] theorem applyReset_sampler : (applyReset s).sampler = s.sampler := rfl
@[simp] theorem applyReset_out : (applyReset s).out = {} := rfl

@[simp] theorem acceptAt_baseline : (acceptAt now b).baseline = b.baseline := rfl
@[simp] theorem acceptAt_calibrated : (acceptAt now b).calibrated = b.calibrated := rfl
@[simp] theorem acceptAt_gstate : (acceptAt now b).gstate = b.gstate := rfl
@[simp] theorem acceptAt_startPos : (acceptAt now b).startPos = b.startPos := rfl
@[simp] theorem acceptAt_prevPos : (acceptAt now b).prevPos = b.prevPos := rfl
@[simp] theorem acceptAt_startTime : (acceptAt now b).startTime = b.startTime := rfl
@[simp] theorem acceptAt_prevTime : (acceptAt now b).prevTime = b.prevTime := rfl
@[simp] theorem acceptAt_lastAccept : (acceptAt now b).lastAccept = now := rfl
@[simp] theorem acceptAt_haveAccept : (acceptAt now b).haveAccept = true := rfl
@[simp] theorem acceptAt_err : (acceptAt now b).err = b.err := rfl

end Updates

/-! ### What a configuration's legality gives -/

theorem two_le_padCount (c : Config) : 2 ≤ c.padCount := by
  have := c.isLegal
  simp [Params.legal] at this
  omega

theorem maxVelocity_pos (c : Config) : 0 < c.maxVelocity := by
  have := c.isLegal
  simp [Params.legal] at this
  exact this.1.1.2

theorem deadzone_nonneg (c : Config) : 0 ≤ c.deadzone := by
  have := c.isLegal
  simp [Params.legal] at this
  exact this.1.2

theorem fsoShift_le_seven (c : Config) : c.fsoShift ≤ 7 := by
  have := c.isLegal
  simp [Params.legal] at this
  exact this.2

end Sys2Proof.Laws
end

