-- ==== Sys2Proof/Laws/Slider.lean ====
section
/-! SUPPORT. What the position sample and the calibration do: the readings they take, the requests they make, and, in
exact arithmetic, the sums they compute (42_slider.md rules R141 to R149). -/

namespace Sys2Proof.Laws

open Sys2Proof.Machine Sys2Proof.Safety

/-! ### The sampler -/

@[simp] theorem Sampler.advance_zero (sm : Sampler) : sm.advance 0 = sm := by simp [Sampler.advance]

@[simp] theorem Sampler.advance_advance (sm : Sampler) (m n : Nat) : (sm.advance m).advance n = sm.advance (m + n) := by
  simp [Sampler.advance, Nat.add_assoc]

@[simp] theorem Sampler.upcoming_advance (cfg : Config) (sm : Sampler) (m k : Nat) :
    (sm.advance m).upcoming cfg k = sm.upcoming cfg (m + k) := by
  simp [Sampler.advance, Sampler.upcoming, Nat.add_assoc]

theorem upcoming_lt (cfg : Config) (sm : Sampler) (k : Nat) : sm.upcoming cfg k < 2 ^ cfg.readingWidth :=
  Nat.mod_lt _ (by positivity)

/-! ### The position sample (R145, R146) -/

/-- Reading `n` pads from pad `i` on draws `n` readings and makes `n` requests, in order. -/
theorem readPads_eq (cfg : Config) (n i : Nat) (e : Collab) :
    readPads cfg n i e =
      ((List.range n).map (e.sampler.upcoming cfg),
       { sampler := e.sampler.advance n
         asked := e.asked ++ (List.range n).map fun k => Request.padRead (i + k) }) := by
  induction n generalizing i e with
  | zero => simp [readPads]
  | succ n ih =>
    simp only [readPads, ih, padRead, List.range_succ_eq_map, List.map_cons, List.map_map, Sampler.advance_advance,
      Prod.mk.injEq, List.cons.injEq, true_and]
    refine ⟨List.map_congr_left fun k _ => ?_, ?_⟩
    · simp [Nat.add_comm]
    · simp [Function.comp_def, Nat.add_comm, Nat.add_left_comm]

theorem positionSample_collab (s : State) :
    (positionSample s).2 = { sampler := s.sampler.advance s.cfg.padCount, asked := sampleRequests s } := by
  simp [positionSample, readPads_eq, Collab.start, sampleRequests]

theorem positionSample_sample (s : State) :
    (positionSample s).1
      = positionOf s.cfg s.blk ((List.range s.cfg.padCount).map (s.sampler.upcoming s.cfg)) := by
  simp [positionSample, readPads_eq, Collab.start]

/-- The exact weight of pad `i` for a reading `v`. -/
def exactWeight (cfg : Config) (b : Block) (i : Nat) (v : ℚ) : ℚ :=
  if v < b.baselineAt i * (1 - cfg.dropFraction) then b.baselineAt i * (1 - cfg.dropFraction) - v else 0

theorem addPad_exact {cfg : Config} (h : cfg.numerics = .exact) (b : Block) (i v : Nat) (acc : ℚ × ℚ) :
    addPad cfg b i v acc = (acc.1 + exactWeight cfg b i v,
      acc.2 + (i : ℚ) / ((cfg.padCount : ℚ) - 1) * exactWeight cfg b i v) := by
  have hp : 1 ≤ cfg.padCount := by
    have := two_le_padCount cfg
    omega
  unfold addPad exactWeight
  simp only [h, arith, exactOp, threshold, ratOf, nominalPos]
  split
  · simp [Nat.cast_sub hp]
  · simp

theorem addPads_exact {cfg : Config} (h : cfg.numerics = .exact) (b : Block) (i : Nat) (vs : List Nat)
    (acc : ℚ × ℚ) :
    addPads cfg b i vs acc =
      (acc.1 + ∑ k ∈ Finset.range vs.length, exactWeight cfg b (i + k) (vs.getD k 0 : ℕ),
       acc.2 + ∑ k ∈ Finset.range vs.length,
        ((i + k : ℕ) : ℚ) / ((cfg.padCount : ℚ) - 1) * exactWeight cfg b (i + k) (vs.getD k 0 : ℕ)) := by
  induction vs generalizing i acc with
  | nil => simp [addPads]
  | cons v vs ih =>
    simp only [addPads, ih, addPad_exact h, List.length_cons, Finset.sum_range_succ']
    have e : ∀ k, i + 1 + k = i + (k + 1) := by
      intro k
      omega
    simp only [e, List.getD_cons_succ, List.getD_cons_zero, Nat.add_zero]
    ext <;> simp <;> ring

/-- The position sample in exact arithmetic: the weighted centroid, or no-touch when the weights sum to 0. -/
theorem positionSample_exact (s : State) (h : s.cfg.numerics = .exact) :
    (positionSample s).1 =
      if ∑ i ∈ Finset.range s.cfg.padCount, padWeight s i = 0 then .noTouch
      else .position ((∑ i ∈ Finset.range s.cfg.padCount, padNominal s i * padWeight s i)
                        / ∑ i ∈ Finset.range s.cfg.padCount, padWeight s i) := by
  have weight : ∀ i ∈ Finset.range s.cfg.padCount,
      exactWeight s.cfg s.blk i (((List.range s.cfg.padCount).map (s.sampler.upcoming s.cfg)).getD i 0 : ℕ)
        = padWeight s i := by
    intro i hi
    simp at hi
    simp [exactWeight, padWeight, padThreshold, padReading, hi]
    rfl
  have moment : ∀ i ∈ Finset.range s.cfg.padCount, (i : ℚ) / ((s.cfg.padCount : ℚ) - 1) *
      exactWeight s.cfg s.blk i (((List.range s.cfg.padCount).map (s.sampler.upcoming s.cfg)).getD i 0 : ℕ)
        = padNominal s i * padWeight s i := fun i hi => by rw [weight i hi]; rfl
  rw [positionSample_sample, positionOf, addPads_exact h]
  simp only [List.length_map, List.length_range, zero_add]
  rw [Finset.sum_congr rfl weight, Finset.sum_congr rfl moment]
  simp only [centroid, h, arith, exactOp]

/-- The position sample reads the configuration, the sampler and the baselines, and nothing else. -/
theorem positionSample_congr {s t : State} (hc : s.cfg = t.cfg) (hs : s.sampler = t.sampler)
    (hb : s.blk.baseline = t.blk.baseline) : positionSample s = positionSample t := by
  have pads : ∀ (i : Nat) (vs : List Nat) (acc : ℚ × ℚ),
      addPads t.cfg s.blk i vs acc = addPads t.cfg t.blk i vs acc := by
    intro i vs acc
    induction vs generalizing i acc with
    | nil => rfl
    | cons v vs ih =>
      simp only [addPads, ih]
      congr 1
      simp [addPad, Block.baselineAt, hb]
  ext1
  · rw [positionSample_sample, positionSample_sample, hc, hs]
    simp only [positionOf]
    rw [pads]
  · rw [positionSample_collab, positionSample_collab, sampleRequests, sampleRequests, hc, hs]

/-! ### Weights and nominal positions (R147) -/

theorem padWeight_nonneg (s : State) (i : Nat) : 0 ≤ padWeight s i := by
  unfold padWeight
  split <;> linarith

theorem padWeight_eq_zero (s : State) (i : Nat) : padWeight s i = 0 ↔ padThreshold s i ≤ padReading s i := by
  unfold padWeight
  split
  · constructor <;> intro h <;> linarith
  · simp_all

theorem padNominal_mem (s : State) {i : Nat} (h : i < s.cfg.padCount) : 0 ≤ padNominal s i ∧ padNominal s i ≤ 1 := by
  have hc : (0 : ℚ) < (s.cfg.padCount : ℚ) - 1 := by
    have : (2 : ℚ) ≤ s.cfg.padCount := by exact_mod_cast two_le_padCount s.cfg
    linarith
  have hi : (i : ℚ) + 1 ≤ s.cfg.padCount := by exact_mod_cast h
  unfold padNominal
  constructor
  · positivity
  · rw [div_le_one hc]
    linarith

theorem weightSum_eq_zero (s : State) :
    ∑ i ∈ Finset.range s.cfg.padCount, padWeight s i = 0
      ↔ ∀ i < s.cfg.padCount, padThreshold s i ≤ padReading s i := by
  rw [Finset.sum_eq_zero_iff_of_nonneg fun i _ => padWeight_nonneg s i]
  simp [padWeight_eq_zero]

/-- A weighted mean of numbers in [0, 1] lies in [0, 1]. -/
theorem centroid_mem (s : State) (h : ∑ i ∈ Finset.range s.cfg.padCount, padWeight s i ≠ 0) :
    0 ≤ (∑ i ∈ Finset.range s.cfg.padCount, padNominal s i * padWeight s i)
          / ∑ i ∈ Finset.range s.cfg.padCount, padWeight s i
      ∧ (∑ i ∈ Finset.range s.cfg.padCount, padNominal s i * padWeight s i)
          / ∑ i ∈ Finset.range s.cfg.padCount, padWeight s i ≤ 1 := by
  have hp : 0 < ∑ i ∈ Finset.range s.cfg.padCount, padWeight s i :=
    lt_of_le_of_ne (Finset.sum_nonneg fun i _ => padWeight_nonneg s i) (Ne.symm h)
  constructor
  · apply div_nonneg _ hp.le
    apply Finset.sum_nonneg
    intro i hi
    exact mul_nonneg (padNominal_mem s (Finset.mem_range.1 hi)).1 (padWeight_nonneg s i)
  · rw [div_le_one hp]
    apply Finset.sum_le_sum
    intro i hi
    have := (padNominal_mem s (Finset.mem_range.1 hi)).2
    nlinarith [padWeight_nonneg s i]

theorem positionSample_mem {s : State} (h : s.cfg.numerics = .exact) {x : ℚ}
    (hx : (positionSample s).1 = .position x) : 0 ≤ x ∧ x ≤ 1 := by
  rw [positionSample_exact s h] at hx
  split at hx
  · cases hx
  · cases hx
    exact centroid_mem s (by assumption)

/-- Pads whose baselines are all 0 have no weight (R149). -/
theorem weightSum_uncalibrated {s : State} (hz : ∀ x ∈ s.blk.baseline, x = 0) :
    ∑ i ∈ Finset.range s.cfg.padCount, padWeight s i = 0 := by
  rw [weightSum_eq_zero]
  intro i _
  have hr : 0 ≤ padReading s i := by
    unfold padReading
    positivity
  have hb : s.blk.baselineAt i = 0 := by
    unfold Block.baselineAt
    rw [List.getD_eq_getElem?_getD]
    cases hg : s.blk.baseline[i]? with
    | none => rfl
    | some x => exact hz x (List.mem_of_getElem? hg)
  simpa [padThreshold, hb] using hr

/-- The nominal positions sum to half the number of pads. -/
theorem padNominal_sum (s : State) :
    ∑ i ∈ Finset.range s.cfg.padCount, padNominal s i = (s.cfg.padCount : ℚ) / 2 := by
  have h2 := two_le_padCount s.cfg
  have h2' : (2 : ℚ) ≤ s.cfg.padCount := by exact_mod_cast h2
  have hc : (s.cfg.padCount : ℚ) - 1 ≠ 0 := by linarith
  have hsum := Finset.sum_range_id_mul_two s.cfg.padCount
  have hq : (∑ i ∈ Finset.range s.cfg.padCount, (i : ℚ)) * 2 = s.cfg.padCount * (s.cfg.padCount - 1) := by
    have e : ((s.cfg.padCount - 1 : ℕ) : ℚ) = (s.cfg.padCount : ℚ) - 1 := by
      rw [Nat.cast_sub (by omega)]
      simp
    rw [← e, ← Nat.cast_mul, ← hsum]
    simp
  unfold padNominal
  rw [← Finset.sum_div, div_eq_div_iff hc (by norm_num), hq]

/-! ### The calibration (R141, R142, R144) -/

/-- The inner loop for one pad: the readings it draws, the requests it makes, and the exact sum. -/
theorem sumReadings_eq (cfg : Config) (pad : Nat) (dly : Operand) (n k : Nat) (acc : ℚ × Collab) :
    (sumReadings cfg pad dly n k acc).2 =
        { sampler := acc.2.sampler.advance n
          asked := acc.2.asked ++ (List.range n).flatMap fun j =>
            if k + j = 0 then [Request.padRead pad] else [.delay dly, .padRead pad] }
      ∧ (cfg.numerics = .exact →
          (sumReadings cfg pad dly n k acc).1
            = acc.1 + ∑ j ∈ Finset.range n, (acc.2.sampler.upcoming cfg j : ℚ)) := by
  induction n generalizing k acc with
  | zero => simp [sumReadings]
  | succ n ih =>
    have hs : (if 0 < k then delay dly acc.2 else acc.2).sampler = acc.2.sampler := by split <;> rfl
    refine ⟨?_, ?_⟩
    · simp only [sumReadings]
      rw [(ih _ _).1]
      simp only [padRead, hs, Sampler.advance_advance]
      have e : ∀ j, k + 1 + j = k + (j + 1) := by
        intro j
        omega
      simp only [List.range_succ_eq_map, List.flatMap_cons, List.flatMap_map, e, Nat.add_comm 1 n]
      congr 1
      by_cases hk : k = 0
      · simp [hk]
      · simp [hk, Nat.pos_of_ne_zero hk, delay]
    · intro hx
      simp only [sumReadings]
      rw [(ih _ _).2 hx]
      simp only [padRead, hs, Sampler.upcoming_advance, Finset.sum_range_succ', hx, arith, exactOp, ratOf,
        Nat.add_comm 1]
      ring

/-- The outer loop: one mean for each pad, the readings in pad-major order, and the exact means. -/
theorem newBaselines_eq (cfg : Config) (n : Nat) (dly : Operand) (pads i : Nat) (e : Collab) :
    (newBaselines cfg n dly pads i e).1.length = pads
      ∧ (newBaselines cfg n dly pads i e).2 =
        { sampler := e.sampler.advance (pads * n)
          asked := e.asked ++ (List.range pads).flatMap fun p => (List.range n).flatMap fun k =>
            if k = 0 then [Request.padRead (i + p)] else [.delay dly, .padRead (i + p)] }
      ∧ (cfg.numerics = .exact → (newBaselines cfg n dly pads i e).1 = (List.range pads).map fun p =>
          (∑ k ∈ Finset.range n, (e.sampler.upcoming cfg (p * n + k) : ℚ)) / (n : ℚ)) := by
  induction pads generalizing i e with
  | zero => simp [newBaselines]
  | succ pads ih =>
    obtain ⟨s1, s2⟩ := sumReadings_eq cfg i dly n 0 (0, e)
    refine ⟨by simp [newBaselines, (ih _ _).1], ?_, ?_⟩
    · simp only [newBaselines]
      rw [(ih _ _).2.1, s1]
      simp only [Sampler.advance_advance]
      have e' : ∀ j, i + 1 + j = i + (j + 1) := by
        intro j
        omega
      simp only [List.range_succ_eq_map (n := pads), List.flatMap_cons, List.flatMap_map, e', Nat.zero_add,
        Nat.add_zero, List.append_assoc]
      congr 2
      simp [Nat.succ_mul]
      omega
    · intro hx
      simp only [newBaselines]
      rw [(ih _ _).2.2 hx, s2 hx, s1]
      simp only [List.range_succ_eq_map (n := pads), List.map_cons, List.map_map, hx, arith, exactOp, ratOf,
        Sampler.upcoming_advance]
      congr 1
      · simp
      · apply List.map_congr_left
        intro p _
        simp only [Function.comp]
        congr 1
        apply Finset.sum_congr rfl
        intro k _
        congr 2
        simp [Nat.succ_mul]
        omega

end Sys2Proof.Laws
end

