-- ==== Sys2Proof/Laws/Gesture.lean ====
section
/-! SUPPORT. What a poll does: the rate limiter, the motion function, and everything the gesture machine can do in one
accepted poll (43_gesture.md rules R171 to R178). -/

namespace Sys2Proof.Laws

open Sys2Proof.Machine Sys2Proof.Safety

/-! ### The rate limiter (R171, R172) -/

theorem pollAccepted_iff (s : State) : pollAccepted s = true ↔
    (s.blk.haveAccept = false ∨ s.cfg.sampleIntervalMs ≤ (s.now - s.blk.lastAccept).toNat) := by
  simp [pollAccepted]

theorem execPoll_early {s : State} (h : pollAccepted s = false) : exec .poll s = .next (respond {} s) := by
  simp [exec, execPoll, h]

theorem execPoll_due {s : State} (h : pollAccepted s = true) : exec .poll s = .next (acceptedPoll s) := by
  simp [exec, execPoll, h]

/-- What an accepted poll leaves, its sample taken apart. -/
theorem acceptedPoll_eq (s : State) : acceptedPoll s = { s with
    blk := (gestureStep s.cfg s.now (positionSample s).1 (acceptAt s.now s.blk)).1
    sampler := s.sampler.advance s.cfg.padCount
    out := { requests := sampleRequests s, response := some (
      eventResponse (gestureStep s.cfg s.now (positionSample s).1 (acceptAt s.now s.blk)).2) } } := by
  simp [acceptedPoll, respondAfter, positionSample_collab]

/-! ### The motion function (R176) -/

theorem motion_exact {cfg : Config} (h : cfg.numerics = .exact) (dx : ℚ) (dt : Nat) :
    motion cfg dx dt = (if 0 ≤ dx * 1000 / dt then .forward else .backward,
      if min (|dx * 1000 / dt| / cfg.maxVelocity) 1 < cfg.deadzone then 0
        else min (|dx * 1000 / dt| / cfg.maxVelocity) 1) := by
  have : max (|dx * 1000 / (dt : ℚ)| / cfg.maxVelocity) 0 = |dx * 1000 / (dt : ℚ)| / cfg.maxVelocity :=
    max_eq_left (div_nonneg (abs_nonneg _) (maxVelocity_pos cfg).le)
  simp [motion, h, arith, exactOp, ratOf, clamp, this]

theorem motion_le_one (cfg : Config) (dx : ℚ) (dt : Nat) : (motion cfg dx dt).2 ≤ 1 := by
  unfold motion clamp
  dsimp only
  split_ifs <;> simp

theorem motion_silent {cfg : Config} (h : 1 < cfg.deadzone) (dx : ℚ) (dt : Nat) : (motion cfg dx dt).2 = 0 := by
  unfold motion clamp
  dsimp only
  rw [if_pos (lt_of_le_of_lt (min_le_right _ _) h)]

theorem eventResponse_motion (c : Prop) [Decidable c] (m : ℚ) :
    eventResponse (if 0 < m then .motion (if c then .forward else .backward) m else .none)
      = if 0 < m then { accepted := 1#1, kind := 0b01#2, dir := if c then 0#1 else 1#1, mag := m }
        else { accepted := 1#1 } := by
  split_ifs <;> rfl

theorem eventResponse_ended (c : Prop) [Decidable c] (m : ℚ) :
    eventResponse (if 0 < m then .ended (if c then .forward else .backward) m else .none)
      = if 0 < m then { accepted := 1#1, kind := 0b10#2, dir := if c then 0#1 else 1#1, mag := m }
        else { accepted := 1#1 } := by
  split_ifs <;> rfl

/-! ### The gesture machine -/

/-- The gesture machine writes no baseline, no flag and not the rate limiter. -/
theorem gestureStep_keeps (cfg : Config) (now : Time) (r : Sample) (b : Block) :
    (gestureStep cfg now r b).1.baseline = b.baseline ∧ (gestureStep cfg now r b).1.calibrated = b.calibrated
      ∧ (gestureStep cfg now r b).1.err = b.err ∧ (gestureStep cfg now r b).1.lastAccept = b.lastAccept
      ∧ (gestureStep cfg now r b).1.haveAccept = b.haveAccept := by
  unfold gestureStep
  cases b.gstate <;> cases r <;> simp [pollIdle, pollTouched, pollReleased] <;> split <;> simp

/-- Every event reported is the motion function's, with a positive magnitude. -/
theorem gestureStep_event (cfg : Config) (now : Time) (r : Sample) (b : Block) :
    (gestureStep cfg now r b).2 = .none ∨ ∃ dx dt, 0 < (motion cfg dx dt).2 ∧
      ((gestureStep cfg now r b).2 = .motion (motion cfg dx dt).1 (motion cfg dx dt).2
        ∨ (gestureStep cfg now r b).2 = .ended (motion cfg dx dt).1 (motion cfg dx dt).2) := by
  unfold gestureStep
  cases b.gstate with
  | idle => cases r <;> simp [pollIdle]
  | active =>
    cases r with
    | noTouch =>
      simp only [pollReleased]
      split
      · simp
      · simp only
        split
        · exact .inr ⟨_, _, by assumption, .inr rfl⟩
        · simp
    | position x =>
      simp only [pollTouched]
      split
      · simp
      · simp only
        split
        · exact .inr ⟨_, _, by assumption, .inl rfl⟩
        · simp

/-- A machine left Active has just seen a position, and its last sample is the present one. -/
theorem gestureStep_active {cfg : Config} {now : Time} {r : Sample} {b : Block}
    (h : (gestureStep cfg now r b).1.gstate = .active) :
    (∃ x, r = .position x) ∧ ((gestureStep cfg now r b).1.prevTime = now
      ∨ (b.gstate = .active ∧ now = b.prevTime ∧ (gestureStep cfg now r b).1 = b)) := by
  unfold gestureStep at *
  cases hb : b.gstate with
  | idle =>
    simp only [hb] at h ⊢
    cases r with
    | noTouch => simp [pollIdle, hb] at h
    | position x => exact ⟨⟨x, rfl⟩, .inl rfl⟩
  | active =>
    simp only [hb] at h ⊢
    cases r with
    | noTouch =>
      simp only [pollReleased] at h
      split at h <;> simp at h
    | position x =>
      refine ⟨⟨x, rfl⟩, ?_⟩
      simp only [pollTouched]
      split
      · exact .inr ⟨trivial, by bv_omega, rfl⟩
      · exact .inl rfl

/-- The gesture positions stay in [0, 1] while Active (R27). -/
theorem gestureStep_positions {cfg : Config} {now : Time} {r : Sample} {b : Block}
    (hr : ∀ x, r = .position x → 0 ≤ x ∧ x ≤ 1)
    (hb : b.gstate = .active → (0 ≤ b.startPos ∧ b.startPos ≤ 1) ∧ (0 ≤ b.prevPos ∧ b.prevPos ≤ 1))
    (h : (gestureStep cfg now r b).1.gstate = .active) :
    (0 ≤ (gestureStep cfg now r b).1.startPos ∧ (gestureStep cfg now r b).1.startPos ≤ 1)
      ∧ (0 ≤ (gestureStep cfg now r b).1.prevPos ∧ (gestureStep cfg now r b).1.prevPos ≤ 1) := by
  unfold gestureStep at *
  cases hg : b.gstate with
  | idle =>
    simp only [hg] at h ⊢
    cases r with
    | noTouch => simp [pollIdle, hg] at h
    | position x => exact ⟨hr x rfl, hr x rfl⟩
  | active =>
    simp only [hg] at h ⊢
    cases r with
    | noTouch =>
      simp only [pollReleased] at h
      split at h <;> simp at h
    | position x =>
      simp only [pollTouched]
      split
      · exact hb hg
      · exact ⟨(hb hg).1, hr x rfl⟩

end Sys2Proof.Laws
end

