-- ==== Sys2Proof/Laws/PerInstr.lean ====
section
/-! SUPPORT. For every instruction: the word its encoder writes has the fixed bits of its row of the opcode table. -/

namespace Sys2Proof.Laws.TableRow

/-- The encoded word matches the instruction's own row of the opcode table. -/
def Statement (i : Instr) : Prop := (opTable[i.rowIndex]?).map (fun row => row.matches (encode i)) = some true

theorem command_matches (op : BitVec 4) (a b c : Operand) (pattern : Nat) (h : pattern = op.toNat * 2 ^ 48) :
    OpRow.matches ⟨52, 0xf000000000000, pattern⟩ (.command (commandWord op a b c)) = true := by
  simp only [OpRow.matches, PortWord.width, PortWord.bits, command_mask, commandWord_op, h]
  simp

theorem encw (a b : Operand) : Statement (.encw a b) := congrArg some (command_matches _ _ _ _ _ rfl)
theorem encr (a : Operand) : Statement (.encr a) := congrArg some (command_matches _ _ _ _ _ rfl)
theorem decf (a : Operand) : Statement (.decf a) := congrArg some (command_matches _ _ _ _ _ rfl)
theorem pkbc (a b : Operand) : Statement (.pkbc a b) := congrArg some (command_matches _ _ _ _ _ rfl)
theorem pkot (a b : Operand) : Statement (.pkot a b) := congrArg some (command_matches _ _ _ _ _ rfl)
theorem pkct (a b c : Operand) : Statement (.pkct a b c) := congrArg some (command_matches _ _ _ _ _ rfl)
theorem pktr (a b c : Operand) : Statement (.pktr a b c) := congrArg some (command_matches _ _ _ _ _ rfl)
theorem cal (a b : Operand) : Statement (.cal a b) := congrArg some (command_matches _ _ _ _ _ rfl)
theorem spos : Statement .spos := congrArg some (command_matches _ _ _ _ _ rfl)
theorem poll : Statement .poll := congrArg some (command_matches _ _ _ _ _ rfl)
theorem rdst : Statement .rdst := congrArg some (command_matches _ _ _ _ _ rfl)
theorem reserved0 (a b c : Operand) : Statement (.reserved0 a b c) := congrArg some (command_matches _ _ _ _ _ rfl)
theorem reservedC (a b c : Operand) : Statement (.reservedC a b c) := congrArg some (command_matches _ _ _ _ _ rfl)
theorem reservedD (a b c : Operand) : Statement (.reservedD a b c) := congrArg some (command_matches _ _ _ _ _ rfl)
theorem reservedE (a b c : Operand) : Statement (.reservedE a b c) := congrArg some (command_matches _ _ _ _ _ rfl)
theorem reservedF (a b c : Operand) : Statement (.reservedF a b c) := congrArg some (command_matches _ _ _ _ _ rfl)

theorem write_matches (f : Frame) (h : f.extractLsb' 15 1 = 1#1) :
    OpRow.matches ⟨16, 0x8000, 0x8000⟩ (.frame f) = true := by
  simp only [OpRow.matches, PortWord.width, PortWord.bits, writeFrame_mask, h]
  simp

theorem read_matches (f : Frame) (h : f.extractLsb' 15 1 = 0#1) (h0 : f.extractLsb' 0 9 = 0#9) :
    OpRow.matches ⟨16, 0x81ff, 0x0⟩ (.frame f) = true := by
  simp only [OpRow.matches, PortWord.width, PortWord.bits, readFrame_mask, h, h0]
  simp

theorem writeFrame (a : BitVec 4) (p : BitVec 1) (d : Payload) : Statement (.writeFrame a p d) :=
  congrArg some (write_matches _ (writeFrame_fields a p d rfl).1)

theorem readFrame (a : BitVec 5) (p : BitVec 1) : Statement (.readFrame a p) :=
  congrArg some (read_matches _ (readFrame_fields a p rfl).1 (readFrame_fields a p rfl).2.2.2)

end Sys2Proof.Laws.TableRow
end

