-- ==== Sys2Proof/Laws/Step.lean ====
section
/-! SUPPORT. Everything an instruction, and a step, can do: the inversion lemmas that claims about all steps rest on. -/

namespace Sys2Proof.Laws

open Sys2Proof.Machine Sys2Proof.Safety

/-- Everything an instruction can do to the block's state. -/
inductive BlockEffect (i : Instr) (s : State) : Block → Prop where
  | kept : isReserved s.cfg i = false → raisesBadOperand i = false → BlockEffect i s s.blk
  | illegal : isReserved s.cfg i = true → BlockEffect i s { s.blk with err := s.blk.err ||| 0b01#2 }
  | badOperand (b : Operand) : i = .cal 0#16 b → BlockEffect i s { s.blk with err := s.blk.err ||| 0b10#2 }
  | calibrated (a b : Operand) (means : List ℚ) : i = .cal a b → a ≠ 0#16 → means.length = s.cfg.padCount →
      (s.cfg.numerics = .exact → means = (List.range s.cfg.padCount).map fun p =>
        (∑ k ∈ Finset.range a.toNat, (s.sampler.upcoming s.cfg (p * a.toNat + k) : ℚ)) / (a.toNat : ℚ)) →
      BlockEffect i s { s.blk with baseline := means, calibrated := true }
  | polled : i = .poll → pollAccepted s = true →
      BlockEffect i s (gestureStep s.cfg s.now (positionSample s).1 (acceptAt s.now s.blk)).1

/-- An instruction answers a next state, and changes the block as `BlockEffect` says, the sampler and the output. -/
theorem exec_effect (i : Instr) (s : State) : ∃ (b : Block) (sm : Sampler) (o : Output),
    exec i s = .next { s with blk := b, sampler := sm, out := o } ∧ BlockEffect i s b := by
  cases i with
  | encr a =>
    cases h : s.cfg.hasReadPath
    · exact ⟨_, s.sampler, _, by simp [exec, execEncr, h, raise, respond, ErrorFlag.bit]; rfl,
        .illegal (by simp [isReserved, h])⟩
    · exact ⟨_, s.sampler, _, by simp [exec, execEncr, h, respond]; rfl, .kept (by simp [isReserved, h]) rfl⟩
  | cal a b =>
    by_cases ha : a = 0#16
    · subst ha
      exact ⟨_, s.sampler, _, rfl, .badOperand b rfl⟩
    · obtain ⟨h0, -, h2⟩ := newBaselines_eq s.cfg a.toNat b s.cfg.padCount 0 (Collab.start s)
      exact ⟨_, _, _, by simp only [exec, execCal, ha, if_false]; rfl, .calibrated a b _ rfl ha h0 h2⟩
  | poll =>
    cases h : pollAccepted s
    · exact ⟨_, s.sampler, _, execPoll_early h, .kept rfl rfl⟩
    · exact ⟨_, _, _, execPoll_due h, .polled rfl h⟩
  | reserved0 a b c => exact ⟨_, s.sampler, _, rfl, .illegal rfl⟩
  | reservedC a b c => exact ⟨_, s.sampler, _, rfl, .illegal rfl⟩
  | reservedD a b c => exact ⟨_, s.sampler, _, rfl, .illegal rfl⟩
  | reservedE a b c => exact ⟨_, s.sampler, _, rfl, .illegal rfl⟩
  | reservedF a b c => exact ⟨_, s.sampler, _, rfl, .illegal rfl⟩
  | spos => exact ⟨_, _, _, rfl, .kept rfl rfl⟩
  | _ => exact ⟨_, s.sampler, _, rfl, .kept rfl rfl⟩

/-- Every frame event is a transfer of the frame, whether or not it has a row in the table. -/
theorem runFrame_eq (f : Frame) (s : State) : runFrame f s = .next (transfer f s) := by
  unfold runFrame decodeFrame
  split
  · rename_i i h
    split at h
    · rename_i h15
      cases h
      simp only [exec, execWriteFrame, ← h15, append_writeFields]
    · rename_i h15
      split at h
      · rename_i h0
        cases h
        simp only [exec, execReadFrame, ← oneBit_eq_zero_of_ne_one h15, ← h0, append_readFields]
      · cases h
  · rfl

/-- Everything a step can do: hold, apply the reset input, move a frame on the bus, or run a command. -/
inductive StepEffect (s t : State) : Prop where
  | idle : s.port = [] → t = s → StepEffect s t
  | reset (rest : List PortEvent) :
      s.port = .reset :: rest → t = applyReset { s with port := rest } → StepEffect s t
  | moved (rest : List PortEvent) (f : Frame) :
      s.port = .frame f :: rest → t = transfer f { s with port := rest } → StepEffect s t
  | ran (rest : List PortEvent) (cw : CommandWord) (now : Time) (b : Block) (sm : Sampler) (o : Output) :
      s.port = .command now cw :: rest →
      BlockEffect (decodeCommand cw) { s with port := rest, now := now } b →
      exec (decodeCommand cw) { s with port := rest, now := now } = .next t →
      t = { s with port := rest, now := now, blk := b, sampler := sm, out := o } → StepEffect s t

theorem step_effect {s t : State} (h : step s = .next t) : StepEffect s t := by
  unfold step at h
  split at h
  · cases h
    exact .idle (by assumption) rfl
  · rename_i now cw rest hp
    obtain ⟨b, sm, o, he, hb⟩ := exec_effect (decodeCommand cw) { s with port := rest, now := now }
    rw [he] at h
    cases h
    exact .ran rest cw now b sm o hp hb he rfl
  · rename_i f rest hp
    rw [runFrame_eq] at h
    cases h
    exact .moved rest f hp rfl
  · rename_i rest hp
    cases h
    exact .reset rest hp rfl

/-- The error flags after an instruction (R212). -/
theorem effect_err {i : Instr} {s : State} {b : Block} (h : BlockEffect i s b) :
    b.err = errAfter s.cfg i s.blk.err := by
  cases h with
  | kept h1 h2 => simp [errAfter, h1, h2]
  | illegal h1 => simp [errAfter, h1]
  | badOperand b hi =>
    subst hi
    rfl
  | calibrated a b means hi ha =>
    subst hi
    simp [errAfter, isReserved, raisesBadOperand, ha]
  | polled hi =>
    subst hi
    exact (gestureStep_keeps _ _ _ _).2.2.1

/-- No instruction clears an error flag or the calibration flag. -/
theorem effect_flags {i : Instr} {s : State} {b : Block} (h : BlockEffect i s b) :
    (∀ j, s.blk.err.getLsbD j = true → b.err.getLsbD j = true)
      ∧ (s.blk.calibrated = true → b.calibrated = true) := by
  cases h with
  | kept => exact ⟨fun _ h => h, fun h => h⟩
  | illegal _ => exact ⟨fun _ h => by simp [h], fun h => h⟩
  | badOperand _ _ => exact ⟨fun _ h => by simp [h], fun h => h⟩
  | calibrated => exact ⟨fun _ h => h, fun _ => rfl⟩
  | polled =>
    obtain ⟨-, k2, k3, -, -⟩ := gestureStep_keeps s.cfg s.now (positionSample s).1 (acceptAt s.now s.blk)
    rw [k2, k3]
    exact ⟨fun _ h => h, fun h => h⟩

end Sys2Proof.Laws
end

