-- ==== Sys2Proof/Tests/Slice0.lean ====
section
/-! SUPPORT. Tests. Expected results are the spec's own worked examples and vectors (95_test_vectors.md), named in each
comment; the words are written out from 30_encoding.md. The last part shows, for every statement with hypotheses, a
state and operands that meet them. -/

namespace Sys2Proof.Tests

open Sys2Proof.Machine Sys2Proof.Safety

/-! ### Small states -/

/-- A machine in configuration `cfg`, its block `b`, the NOW input and the readings to come. -/
def mk (cfg : Config) (b : Block) (now : Time) (readings : List Nat) : State :=
  { State.resetWith cfg with blk := b, now := now, sampler := { supplied := readings, drawn := 0 } }

/-- A block calibrated to the baseline 100 on each of three pads. -/
def calibrated100 : Block := { Block.reset Config.cfg0 with baseline := [100, 100, 100], calibrated := true }

/-- `calibrated100` in a gesture. -/
def active (startPos prevPos : ℚ) (startTime prevTime lastAccept : Time) : Block :=
  { calibrated100 with
    gstate := .active, startPos := startPos, prevPos := prevPos, startTime := startTime, prevTime := prevTime
    lastAccept := lastAccept, haveAccept := true }

def noReadPath : Config := { Config.cfg0 with hasReadPath := false, isLegal := by decide }
def shift (k : Nat) (h : { Config.cfg0.toParams with fsoShift := k }.legal = true) : Config :=
  { Config.cfg0 with fsoShift := k, isLegal := h }
def zeroInterval : Config := { Config.cfg0 with sampleIntervalMs := 0, isLegal := by decide }
def fullDrop : Config := { Config.cfg0 with dropFraction := 1, isLegal := by decide +kernel }
def silent : Config := { Config.cfg0 with deadzone := 2, isLegal := by decide +kernel }
def fourPads : Config :=
  { Config.cfg0 with padCount := 4, maxPads := 4, dropFraction := 1 / 4, isLegal := by decide +kernel }

/-- The next state of an instruction, if it answers one. -/
def next? (i : Instr) (s : State) : Option State :=
  match exec i s with
  | .next t => some t
  | .fault _ => none
  | .refused _ => none

def response? (i : Instr) (s : State) : Option Response := (next? i s).bind (·.out.response)

/-! ### Decoding: one word for each row, from the encodings of R70, R72, R76 and R77 -/

theorem test_decode_reserved0 : decode (.command 0b0000_0000000000000000_0000000000000000_0000000000000000#52)
    = .ok (.reserved0 0 0 0) := by rfl
theorem test_decode_encw : decode (.command 0b0001_0000000000000000_0000000000000011_0000000000000100#52)
    = .ok (.encw 4 3) := by rfl
theorem test_decode_encr : decode (.command 0b0010_0000000000000000_0000000000000000_0000000000011111#52)
    = .ok (.encr 0x1F) := by rfl
theorem test_decode_decf : decode (.command 0b0011_0000000000000000_0000000000000000_1010010000000011#52)
    = .ok (.decf 0xA403) := by rfl
theorem test_decode_pkbc : decode (.command 0b0100_0000000000000000_0000000011111111_0000000000000010#52)
    = .ok (.pkbc 2 0xFF) := by rfl
theorem test_decode_pkot : decode (.command 0b0101_0000000000000000_0000000000000101_0000000000000101#52)
    = .ok (.pkot 5 5) := by rfl
theorem test_decode_pkct : decode (.command 0b0110_0000000000000001_0000000000000001_0000000000000000#52)
    = .ok (.pkct 0 1 1) := by rfl
theorem test_decode_pktr : decode (.command 0b0111_0000000101100100_0000000000000000_0000000000000011#52)
    = .ok (.pktr 3 0 0x164) := by rfl
theorem test_decode_cal : decode (.command 0b1000_0000000000000000_0000000000000101_0000000000000010#52)
    = .ok (.cal 2 5) := by rfl
theorem test_decode_spos : decode (.command 0b1001_0000000000000000_0000000000000000_0000000000000000#52)
    = .ok .spos := by rfl
theorem test_decode_poll : decode (.command 0b1010_0000000000000000_0000000000000000_0000000000000000#52)
    = .ok .poll := by rfl
theorem test_decode_rdst : decode (.command 0b1011_0000000000000000_0000000000000000_0000000000000000#52)
    = .ok .rdst := by rfl
theorem test_decode_reservedC : decode (.command 0b1100_0000000000000000_0000000000000000_0000000000000000#52)
    = .ok (.reservedC 0 0 0) := by rfl
theorem test_decode_reservedD : decode (.command 0b1101_0000000000000011_0000000000000010_0000000000000001#52)
    = .ok (.reservedD 1 2 3) := by rfl
theorem test_decode_reservedE : decode (.command 0b1110_0000000000000011_0000000000000010_0000000000000001#52)
    = .ok (.reservedE 1 2 3) := by rfl
theorem test_decode_reservedF : decode (.command 0b1111_0000000000000000_0000000000000000_0001001000110100#52)
    = .ok (.reservedF 0x1234 0 0) := by rfl
/-- The frame of `ENCW 0x04, 0x003`. -/
theorem test_decode_writeFrame : decode (.frame 0b1_0100_1_0000000011#16) = .ok (.writeFrame 4 1 3) := by rfl
/-- The frame of `ENCR 0x1F`. -/
theorem test_decode_readFrame : decode (.frame 0b0_11111_0_000000000#16) = .ok (.readFrame 31 0) := by rfl
/-- V-D9's frame has a bit of 8:0 set, so it is no row. -/
theorem test_decode_refuses : decode (.frame 0b0_00000_1_000000001#16) = .error .readFrameReservedBits := by rfl

/-- The example of R87. -/
theorem test_encode_encw : encode (.encw 0x04 0x003) = .command 0x1_0000_0003_0004#52 := by rfl
theorem test_decodeTableWord_command : decodeTableWord 56 0x8_0000_0005_0002 = some (.cal 2 5) := by decide +kernel
theorem test_decodeTableWord_frame : decodeTableWord 16 0xA403 = some (.writeFrame 4 1 3) := by decide +kernel
theorem test_decodeTableWord_too_wide : decodeTableWord 16 0x1A403 = none := by decide +kernel
theorem test_withFetchWord : step (State.reset.withFetchWord 56 0xB_0000_0000_0000) = exec .rdst State.reset := by rfl

/-- The examples of R86. -/
theorem test_assemble : assemble "ENCW" [0x04, 0x003] = some (.encw 4 3) ∧ assemble "ENCR" [0x1F] = some (.encr 31)
    ∧ assemble "PKCT" [0, 1, 1] = some (.pkct 0 1 1) ∧ assemble "CAL" [8, 10] = some (.cal 8 10)
    ∧ assemble "SPOS" [] = some .spos ∧ assemble "POLL" [] = some .poll ∧ assemble "RDST" [] = some .rdst
    ∧ assemble ".cmd" [0xC] = some (.reservedC 0 0 0) := by decide +kernel
/-- R87: an operand of 2^16 or more is masked. -/
theorem test_assemble_masks : assemble "DECF" [0x1A403] = some (.decf 0xA403) := by decide +kernel

/-! ### Well-formedness: an ill-formed term for each check -/

/-- V-D8: the write frame of address 4, payload 3 with its parity bit lost. -/
theorem test_wellFormed_refuses_writeFrame : (Instr.writeFrame 4 0 3).wellFormed = false := by decide +kernel
/-- V-D6: the read frame of address 0 with its parity bit lost. -/
theorem test_wellFormed_refuses_readFrame : (Instr.readFrame 0 0).wellFormed = false := by decide +kernel
/-- V-W2 and V-R1. -/
theorem test_wellFormed_accepts : (Instr.writeFrame 4 1 3).wellFormed = true ∧ (Instr.readFrame 0 1).wellFormed = true := by
  decide +kernel
/-- R7: one pad has no nominal position. -/
theorem test_illegal_padCount : Config.ofParams { Config.cfg0.toParams with padCount := 1 } = none := by decide +kernel
theorem test_illegal_maxVelocity : Config.ofParams { Config.cfg0.toParams with maxVelocity := 0 } = none := by
  decide +kernel

/-! ### Frame codec and packer -/

/-- V-W2. -/
theorem test_encw : response? (.encw 4 3) State.reset = some { frame := 0xA403 } := by decide +kernel
/-- V-W11. -/
theorem test_encw_masks : response? (.encw 0xFFFF 0xFFFF) State.reset = some { frame := 0xFBFF } := by decide +kernel
/-- V-R6. -/
theorem test_encr_masks : response? (.encr 0x20) State.reset = some { frame := 0x0200 } := by decide +kernel
/-- 95_test_vectors.md section 2.2, its last line. -/
theorem test_encr_no_read_path : (next? (.encr 1) (State.resetWith noReadPath)).map (fun t => (t.out.response, t.blk.err))
    = some (some {}, 0b01#2) := by decide +kernel
/-- V-D8. -/
theorem test_decf_write : response? (.decf 0xA003) State.reset
    = some { dDir := 1, dAddr := 4, dData := 3, parityOk := 0, rsvOk := 1 } := by decide +kernel
/-- V-D11. -/
theorem test_decf_read : response? (.decf 0x7FFF) State.reset
    = some { dDir := 0, dAddr := 31, dData := 0x1FF, parityOk := 1, rsvOk := 0 } := by decide +kernel
/-- V-P3. -/
theorem test_pkbc : response? (.pkbc 7 0x1FF) State.reset = some { payload := 0x3FF } := by decide +kernel
/-- V-P1. -/
theorem test_pkbc_order : response? (.pkbc 2 0xFF) State.reset = some { payload := 0x2FF } := by decide +kernel
/-- V-P7. -/
theorem test_pkot : response? (.pkot 0x3F 0) State.reset = some { payload := 0x3E0 } := by decide +kernel
/-- V-P12. -/
theorem test_pkct_overlap : response? (.pkct 4 0 1) State.reset = some { payload := 0x005 } := by decide +kernel
/-- V-P15. -/
theorem test_pkct_shift : response? (.pkct 5 1 1) (State.resetWith (shift 7 (by decide)))
    = some { payload := 0x283 } := by decide +kernel
/-- V-P17. -/
theorem test_pktr : response? (.pktr 3 0 0x164) State.reset = some { payload := 0x264 } := by decide +kernel

/-! ### Slider -/

/-- V-C1. -/
theorem test_cal : (next? (.cal 2 0) (mk Config.cfg0 (Block.reset Config.cfg0) 0 [100, 102, 98, 100, 100, 100])).map
    (fun t => (t.blk.baseline, t.blk.calibrated, t.blk.err)) = some ([101, 99, 100], true, 0b00#2) := by decide +kernel
/-- V-C3. -/
theorem test_cal_zero :
    (next? (.cal 0 0) (mk Config.cfg0 { calibrated100 with baseline := [201 / 2, 201 / 2, 201 / 2] } 0 [1])).map
      (fun t => (t.blk.baseline, t.blk.err, t.sampler.supplied, t.out.requests))
      = some ([201 / 2, 201 / 2, 201 / 2], 0b10#2, [1], []) := by decide +kernel
/-- V-S12. -/
theorem test_spos : response? .spos (mk Config.cfg0 { calibrated100 with baseline := [101, 99, 100] } 0 [60, 50, 100])
    = some { posValid := 1, pos := 193 / 600 } := by decide +kernel
/-- V-S15: pad 2 equals its threshold. -/
theorem test_spos_strict :
    response? .spos (mk fourPads { calibrated100 with baseline := [200, 200, 200, 200] } 0 [149, 151, 150, 149])
      = some { posValid := 1, pos := 1 / 2 } := by decide +kernel

/-! ### Gesture machine -/

/-- G5, the poll at 0x0000000A: the time input has wrapped, and the magnitude is clamped. -/
theorem test_poll_motion :
    (next? .poll (mk Config.cfg0 (active (1 / 2) (1 / 2) 0xFFFFFFF6 0xFFFFFFF6 0xFFFFFFF6) 10 [100, 100, 50])).map
      (fun t => (t.out.response, t.blk))
      = some (some { accepted := 1, kind := 0b01, dir := 0, mag := 1 }, active (1 / 2) 1 0xFFFFFFF6 10 10) := by
  decide +kernel
/-- G1, the poll at 1110. -/
theorem test_poll_release :
    (next? .poll (mk Config.cfg0 (active (1 / 2) 1 1030 1090 1090) 1110 [100, 100, 100])).map
      (fun t => (t.out.response, t.blk))
      = some (some { accepted := 1, kind := 0b10, dir := 0, mag := 5 / 16 },
          { active (1 / 2) 1 1030 1090 1110 with gstate := .idle }) := by decide +kernel

/-! ### Status, reserved codes, reset, the bus -/

/-- V-C3's RDST. -/
theorem test_rdst_error : response? .rdst (mk Config.cfg0 { calibrated100 with err := 0b10 } 0 [])
    = some { status := 0x0009 } := by decide +kernel
/-- V-T2. -/
theorem test_rdst_active : response? .rdst (mk Config.cfg0 (active 0 0 0 0 0) 0 []) = some { status := 0x0003 } := by
  decide +kernel
/-- V-T4. -/
theorem test_reserved0 : (next? (.reserved0 0 0 0) State.reset).map (fun t => (t.out.response, t.blk.err))
    = some (some {}, 0b01#2) := by decide +kernel
/-- V-T6: the flags add up. -/
theorem test_reservedC : (next? (.reservedC 0 0 0) (mk Config.cfg0 { calibrated100 with err := 0b10 } 0 [])).map
    (fun t => t.blk.err) = some 0b11#2 := by decide +kernel
/-- R202. -/
theorem test_reservedD : (next? (.reservedD 0 0 0) State.reset).map (fun t => t.blk.err) = some 0b01#2 := by
  decide +kernel
/-- R202. -/
theorem test_reservedE : (next? (.reservedE 0 0 0) State.reset).map (fun t => t.blk.err) = some 0b01#2 := by
  decide +kernel
/-- V-T3. -/
theorem test_reservedF : (next? (.reservedF 0x1234 0 0) State.reset).map (fun t => (t.out.response, t.blk.err))
    = some (some {}, 0b01#2) := by decide +kernel
/-- P1: "Wire order of the first frame 0xA403: bits 1010 0100 0000 0011, bit 15 first". -/
theorem test_writeFrame : (next? (.writeFrame 4 1 3) State.reset).map (fun t => t.out.wire.filterMap movedBit)
    = some [true, false, true, false, false, true, false, false,
        false, false, false, false, false, false, true, true] := by decide +kernel
/-- The frame 0x7C00 of V-R5. -/
theorem test_readFrame : (next? (.readFrame 31 0) State.reset).map (fun t => t.out.wire.filterMap movedBit)
    = some [false, true, true, true, true, true, false, false,
        false, false, false, false, false, false, false, false] := by decide +kernel

/-! ### Witnesses: for each statement with hypotheses, a state and operands that meet them, clause by clause

The name of a theorem is `test_hyps_` and the statement's name. -/

/-- A calibrated machine at a NOW, in Idle, no poll accepted yet. -/
def idle (now : Time) (readings : List Nat) : State := mk Config.cfg0 calibrated100 now readings

/-- A machine in a gesture at position 1/2 whose last accepted poll was at 1000. -/
def moving (now : Time) (readings : List Nat) : State :=
  mk Config.cfg0 (active (1 / 2) (1 / 2) 1000 1000 1000) now readings

/-- A machine with events to come. -/
def withPort (s : State) (port : List PortEvent) : State := { s with port := port }

theorem test_hyps_EncrBuildsTheReadFrame : State.reset.cfg.hasReadPath = true := by decide +kernel
theorem test_hyps_DecfReportsTheFields : (decodedFrame 0xA403).dDir = 1#1 ∧ (decodedFrame 0x0201).dDir = 0#1 := by
  decide +kernel
theorem test_hyps_DecfInvertsTheEncoders : State.reset.cfg.hasReadPath = true := by decide +kernel
theorem test_hyps_DecfDetectsOneFlippedBit : popcount 0xA403#16 % 2 = 1 ∧ 0 < 16 ∧ 15 < 16 := by decide +kernel
theorem test_hyps_EncodersMakeWellFormedFrames : State.reset.cfg.hasReadPath = true := by decide +kernel
/-- Each clause; for buck control at the least shift that moves fsoMode off the enable bits, and at the greatest. -/
theorem test_hyps_PackedFieldsReadBackFromTheLayouts :
    DeviceRegister.buck1Current ∈ packedFor (.pkbc 3 0xFF) ∧ DeviceRegister.buck2Current ∈ packedFor (.pkbc 4 0x100)
      ∧ DeviceRegister.offTime ∈ packedFor (.pkot 31 32) ∧ DeviceRegister.thermalRecovery ∈ packedFor (.pktr 1 2 0xFF)
      ∧ DeviceRegister.buckControl ∈ packedFor (.pkct 7 1 2)
      ∧ 2 ≤ (State.resetWith (shift 2 (by decide))).cfg.fsoShift
      ∧ 2 ≤ (State.resetWith (shift 7 (by decide))).cfg.fsoShift := by decide +kernel
theorem test_hyps_CodecAndPackerArePure :
    isCodecOrPacker (.encr 1) = true ∧ isReserved Config.cfg0 (.encr 1) = false ∧ State.reset.cfg = Config.cfg0
      ∧ isCodecOrPacker (.pktr 0 0 0) = true ∧ isReserved noReadPath (.pktr 0 0 0) = false := by decide +kernel
/-- ENCW with `A` 16 and 0, `B` 1024 and 0 (V-W10), and two values of the unused port. -/
theorem test_hyps_OperandBitsOutsideFieldsAreIgnored :
    (16#16).toNat % 2 ^ (usedBits 0x1#4).1 = (0#16).toNat % 2 ^ (usedBits 0x1#4).1
      ∧ (0x400#16).toNat % 2 ^ (usedBits 0x1#4).2.1 = (0#16).toNat % 2 ^ (usedBits 0x1#4).2.1
      ∧ (0xFFFF#16).toNat % 2 ^ (usedBits 0x1#4).2.2 = (0#16).toNat % 2 ^ (usedBits 0x1#4).2.2 := by decide +kernel
theorem test_hyps_CalStoresTheMeans : State.reset.cfg.numerics = .exact ∧ 1#16 ≠ 0#16 ∧ 0xFFFF#16 ≠ 0#16 := by
  decide +kernel
theorem test_hyps_SposAnswersTheCentroid : State.reset.cfg.numerics = .exact := by decide +kernel
theorem test_hyps_SliderCompletesUnderEveryNumerics : 1#16 ≠ 0#16 := by decide
theorem test_hyps_PositionsLieInTheUnitInterval : (idle 0 [100, 50, 100]).cfg.numerics = .exact := by decide +kernel
theorem test_hyps_NoTouchExactlyWhenNoPadCrosses : (idle 0 [70, 70, 70]).cfg.numerics = .exact := by decide +kernel
/-- V-S2, and V-S6 at the last pad. -/
theorem test_hyps_OneCrossingPadGivesItsPosition :
    ((idle 0 [100, 50, 100]).cfg.numerics = .exact ∧ 1 < (idle 0 [100, 50, 100]).cfg.padCount
      ∧ padReading (idle 0 [100, 50, 100]) 1 < padThreshold (idle 0 [100, 50, 100]) 1
      ∧ ∀ j < (idle 0 [100, 50, 100]).cfg.padCount, j ≠ 1 →
          padThreshold (idle 0 [100, 50, 100]) j ≤ padReading (idle 0 [100, 50, 100]) j)
    ∧ padReading (idle 0 [100, 100, 69]) 2 < padThreshold (idle 0 [100, 100, 69]) 2
      ∧ ∀ j < (idle 0 [100, 100, 69]).cfg.padCount, j ≠ 2 →
          padThreshold (idle 0 [100, 100, 69]) j ≤ padReading (idle 0 [100, 100, 69]) j := by decide +kernel
/-- Pads 1 and 2 of three; and V-S7. -/
theorem test_hyps_EqualWeightsGiveTheMiddle :
    ((idle 0 [100, 60, 60]).cfg.numerics = .exact ∧ 1 < (idle 0 [100, 60, 60]).cfg.padCount
      ∧ 2 < (idle 0 [100, 60, 60]).cfg.padCount ∧ 1 ≠ 2 ∧ 0 < padWeight (idle 0 [100, 60, 60]) 1
      ∧ padWeight (idle 0 [100, 60, 60]) 1 = padWeight (idle 0 [100, 60, 60]) 2
      ∧ ∀ k < (idle 0 [100, 60, 60]).cfg.padCount, k ≠ 1 → k ≠ 2 → padWeight (idle 0 [100, 60, 60]) k = 0)
    ∧ (0 : ℚ) < 20 ∧ ∀ i < (idle 0 [50, 50, 50]).cfg.padCount, padWeight (idle 0 [50, 50, 50]) i = 20 := by
  decide +kernel
/-- Weights 10, 20 (V-S3) and twice as much. -/
theorem test_hyps_PositionDependsOnWeightRatios :
    (idle 0 [60, 50, 100]).cfg.numerics = .exact ∧ (idle 0 [60, 50, 100]).cfg = (idle 0 [50, 30, 100]).cfg
      ∧ (0 : ℚ) < 2 ∧ ∀ i < (idle 0 [60, 50, 100]).cfg.padCount,
          padWeight (idle 0 [50, 30, 100]) i = 2 * padWeight (idle 0 [60, 50, 100]) i := by decide +kernel
theorem test_hyps_NoTouchUncalibratedOrFullDrop :
    (State.reset.cfg.numerics = .exact ∧ ∀ x ∈ State.reset.blk.baseline, x = 0)
    ∧ (mk fullDrop calibrated100 0 [0, 0, 0]).cfg.numerics = .exact
      ∧ (mk fullDrop calibrated100 0 [0, 0, 0]).cfg.dropFraction = 1 := by decide +kernel
/-- One millisecond before the interval has passed. -/
theorem test_hyps_EarlyPollIsANoOp : (moving 1019 []).blk.haveAccept = true
    ∧ ((moving 1019 []).now - (moving 1019 []).blk.lastAccept).toNat < (moving 1019 []).cfg.sampleIntervalMs := by
  decide +kernel
/-- No poll accepted yet; exactly the interval (D36); one millisecond less. -/
theorem test_hyps_PollIsAcceptedWhenDue : (idle 0 []).blk.haveAccept = false
    ∧ (moving 1020 []).cfg.sampleIntervalMs ≤ ((moving 1020 []).now - (moving 1020 []).blk.lastAccept).toNat
    ∧ ((moving 1019 []).blk.haveAccept = true
      ∧ ((moving 1019 []).now - (moving 1019 []).blk.lastAccept).toNat < (moving 1019 []).cfg.sampleIntervalMs) := by
  decide +kernel
/-- G1, the polls at 1000 and 1030. -/
theorem test_hyps_IdlePollStartsAGesture :
    ((idle 1000 [100, 100, 100]).blk.haveAccept = false ∧ (idle 1000 [100, 100, 100]).blk.gstate = .idle
      ∧ (positionSample (idle 1000 [100, 100, 100])).1 = .noTouch)
    ∧ (idle 1030 [100, 50, 100]).blk.haveAccept = false ∧ (idle 1030 [100, 50, 100]).blk.gstate = .idle
      ∧ (positionSample (idle 1030 [100, 50, 100])).1 = .position (1 / 2) := by decide +kernel
/-- Exactly the interval after the last sample; and, with no interval, at the same time (G4). -/
theorem test_hyps_ActivePollReportsMotion :
    ((moving 1020 [100, 60, 60]).cfg.numerics = .exact
      ∧ (moving 1020 [100, 60, 60]).cfg.sampleIntervalMs
          ≤ ((moving 1020 [100, 60, 60]).now - (moving 1020 [100, 60, 60]).blk.lastAccept).toNat
      ∧ (moving 1020 [100, 60, 60]).blk.gstate = .active
      ∧ (positionSample (moving 1020 [100, 60, 60])).1 = .position (3 / 4)
      ∧ (moving 1020 [100, 60, 60]).now ≠ (moving 1020 [100, 60, 60]).blk.prevTime)
    ∧ (mk zeroInterval (active (1 / 2) (1 / 2) 500 500 500) 500 [100, 100, 50]).cfg.sampleIntervalMs
        ≤ ((mk zeroInterval (active (1 / 2) (1 / 2) 500 500 500) 500 [100, 100, 50]).now
            - (mk zeroInterval (active (1 / 2) (1 / 2) 500 500 500) 500 [100, 100, 50]).blk.lastAccept).toNat
      ∧ (positionSample (mk zeroInterval (active (1 / 2) (1 / 2) 500 500 500) 500 [100, 100, 50])).1 = .position 1
      ∧ (mk zeroInterval (active (1 / 2) (1 / 2) 500 500 500) 500 [100, 100, 50]).now
          = (mk zeroInterval (active (1 / 2) (1 / 2) 500 500 500) 500 [100, 100, 50]).blk.prevTime := by
  decide +kernel
/-- G1's release, and G4's with `dt_ms = 0`. -/
theorem test_hyps_ReleasePollReportsTheGesture :
    ((moving 1020 [100, 100, 100]).cfg.numerics = .exact
      ∧ (moving 1020 [100, 100, 100]).cfg.sampleIntervalMs
          ≤ ((moving 1020 [100, 100, 100]).now - (moving 1020 [100, 100, 100]).blk.lastAccept).toNat
      ∧ (moving 1020 [100, 100, 100]).blk.gstate = .active
      ∧ (positionSample (moving 1020 [100, 100, 100])).1 = .noTouch
      ∧ (moving 1020 [100, 100, 100]).now ≠ (moving 1020 [100, 100, 100]).blk.startTime)
    ∧ (positionSample (mk zeroInterval (active (1 / 2) (1 / 2) 500 500 500) 500 [100, 100, 100])).1 = .noTouch
      ∧ (mk zeroInterval (active (1 / 2) (1 / 2) 500 500 500) 500 [100, 100, 100]).now
          = (mk zeroInterval (active (1 / 2) (1 / 2) 500 500 500) 500 [100, 100, 100]).blk.startTime := by
  decide +kernel
/-- Forward to 3/4, backward to 0, and no move; the first two report an event. -/
theorem test_hyps_MotionDirectionIsTheSign :
    (moving 1020 []).cfg.numerics = .exact
      ∧ (moving 1020 []).cfg.sampleIntervalMs ≤ ((moving 1020 []).now - (moving 1020 []).blk.lastAccept).toNat
      ∧ (moving 1020 []).blk.gstate = .active
      ∧ ((positionSample (moving 1020 [100, 60, 60])).1 = .position (3 / 4)
        ∧ (response? .poll (moving 1020 [100, 60, 60])).map (·.kind) = some 0b01#2)
      ∧ ((positionSample (moving 1020 [50, 100, 100])).1 = .position 0
        ∧ (response? .poll (moving 1020 [50, 100, 100])).map (·.kind) = some 0b01#2)
      ∧ (positionSample (moving 1020 [100, 50, 100])).1 = .position (1 / 2)
      ∧ (moving 1020 [100, 50, 100]).blk.prevPos = 1 / 2 := by decide +kernel
theorem test_hyps_DeadzoneAboveOneSilencesEvents : 1 < (State.resetWith silent).cfg.deadzone := by decide +kernel
theorem test_hyps_SecondPollWithinTheIntervalIsANoOp : (idle 1000 []).blk.haveAccept = false
    ∧ ((1019 : Time) - (idle 1000 []).now).toNat < (idle 1000 []).cfg.sampleIntervalMs := by decide +kernel
theorem test_hyps_ActivePollDtIsAtLeastTheInterval : Inv (moving 1020 []) ∧ 0 < (moving 1020 []).cfg.sampleIntervalMs
    ∧ (moving 1020 []).blk.gstate = .active ∧ pollAccepted (moving 1020 []) = true :=
  ⟨⟨by decide +kernel, by decide +kernel, by decide +kernel⟩, by decide +kernel⟩
/-- A NOW that has wrapped: 2^32 - 10 ms, then 2^32 + 10 ms. -/
theorem test_hyps_AcceptanceFollowsRealTime :
    (mk Config.cfg0 (active 0 0 0 0 0xFFFFFFF6) 10 []).blk.haveAccept = true
      ∧ (mk Config.cfg0 (active 0 0 0 0 0xFFFFFFF6) 10 []).blk.lastAccept = BitVec.ofNat 32 (2 ^ 32 - 10)
      ∧ (mk Config.cfg0 (active 0 0 0 0 0xFFFFFFF6) 10 []).now = BitVec.ofNat 32 (2 ^ 32 + 10)
      ∧ 2 ^ 32 - 10 ≤ 2 ^ 32 + 10 ∧ 2 ^ 32 + 10 - (2 ^ 32 - 10) < 2 ^ 32 := by decide +kernel
theorem test_hyps_RdstReadsTheStatusWord : 4 ≤ 4 ∧ 4 ≤ 15 := by decide
theorem test_hyps_ReservedCodesRaiseIllegalCmd : (State.resetWith noReadPath).cfg.hasReadPath = false
    ∧ isReserved noReadPath (decodeCommand (commandWord 0x2#4 0 0 0)) = true
    ∧ isReserved Config.cfg0 (decodeCommand (commandWord 0xC#4 0 0 0)) = true
    ∧ isReserved Config.cfg0 (decodeCommand (commandWord 0xB#4 0 0 0)) = false := by decide +kernel
theorem test_hyps_NoOperationStops :
    (withPort State.reset [.command 0 0xB_0000_0000_0000, .reset]).port
      = .command 0 0xB_0000_0000_0000 :: [.reset] := rfl
theorem test_hyps_OnlyTheListedConditionsRaise :
    (withPort State.reset [.command 0 0x8_0000_0007_0000]).port = [.command 0 0x8_0000_0007_0000]
      ∧ (withPort State.reset [.frame 0x0001]).port = [.frame 0x0001]
      ∧ State.reset.port = [] ∧ ∃ t, step State.reset = .next t :=
  ⟨rfl, rfl, rfl, ⟨_, rfl⟩⟩
theorem test_hyps_FlagsStaySetUntilReset :
    PortEvent.reset ∉ (withPort State.reset [.command 0 0, .command 0 0x8_0000_0000_0000]).port
      ∧ ∃ t, Host.Core.run Sys2Proof.core 2 (withPort State.reset [.command 0 0, .command 0 0x8_0000_0000_0000])
          = .next t := ⟨by decide +kernel, ⟨_, rfl⟩⟩
/-- A step that calibrates, and a step whose accepted poll moves the rate limiter. -/
theorem test_hyps_OnlyTheNamedCommandsWriteTheBlock :
    (∃ t, step (withPort State.reset [.command 0 0x8_0000_0000_0001]) = .next t
      ∧ t.blk.calibrated ≠ State.reset.blk.calibrated)
    ∧ ∃ t, step (withPort (idle 0 [100, 100, 100]) [.command 5 0xA_0000_0000_0000]) = .next t
      ∧ t.blk.haveAccept ≠ (idle 0 [100, 100, 100]).blk.haveAccept :=
  ⟨⟨_, rfl, by decide⟩, ⟨_, rfl, by decide +kernel⟩⟩
theorem test_hyps_ResetInputRestoresTheBlock :
    (withPort (moving 0 []) [.reset]).port = [.reset]
      ∧ ∃ t, step (withPort (moving 0 []) [.reset]) = .next t
          ∧ (moving 0 []).blk.calibrated = true ∧ t.blk.calibrated = false := ⟨rfl, ⟨_, rfl, rfl, rfl⟩⟩
/-- A frame of the table, and one that has no row. -/
theorem test_hyps_FramesGoOutMsbFirst : (withPort State.reset [.frame 0xA403]).port = [.frame 0xA403]
    ∧ (withPort State.reset [.frame 0x0001]).port = [.frame 0x0001] := ⟨rfl, rfl⟩
theorem test_hyps_TransfersAreBracketed : decode (.frame 0xA403) = .ok (.writeFrame 4 1 3)
    ∧ decode (.frame 0x7C00) = .ok (.readFrame 31 0)
    ∧ (withPort State.reset [.frame 0x0001]).port = [.frame 0x0001] := ⟨rfl, rfl, rfl⟩
theorem test_hyps_FrameBytesAreHighByteFirst : ([] : List Byte).length ≠ 2 ∧ ([1, 2, 3] : List Byte).length ≠ 2 := by
  decide
theorem test_hyps_DecodingFollowsTheTable : decode (.command 0) = .ok (.reserved0 0 0 0)
    ∧ opTable[11]? = some ⟨52, 0xf000000000000, 0x0⟩
    ∧ decode (.frame 0x0001) = .error .readFrameReservedBits := ⟨rfl, rfl, rfl⟩
theorem test_hyps_StepRunsTheDecodedInstruction :
    (withPort State.reset [.command 7 0xB_0000_0000_0000]).port = [.command 7 0xB_0000_0000_0000]
      ∧ decode (.command 0xB_0000_0000_0000) = .ok .rdst
      ∧ (withPort State.reset [.frame 0xA403]).port = [.frame 0xA403]
      ∧ decode (.frame 0xA403) = .ok (.writeFrame 4 1 3)
      ∧ (withPort State.reset [.frame 0x0001]).port = [.frame 0x0001]
      ∧ decode (.frame 0x0001) = .error .readFrameReservedBits ∧ State.reset.port = [] :=
  ⟨rfl, rfl, rfl, rfl, rfl, rfl, rfl⟩
theorem test_hyps_StepKeepsInv : Inv (withPort (moving 0 [100, 60, 60]) [.command 1020 0xA_0000_0000_0000])
    ∧ ∃ t, step (withPort (moving 0 [100, 60, 60]) [.command 1020 0xA_0000_0000_0000]) = .next t :=
  ⟨⟨by decide +kernel, by decide +kernel, by decide +kernel⟩, ⟨_, rfl⟩⟩
theorem test_hyps_StepKeepsExactInv : ExactInv (withPort (moving 0 [100, 60, 60]) [.command 1020 0xA_0000_0000_0000])
    ∧ ∃ t, step (withPort (moving 0 [100, 60, 60]) [.command 1020 0xA_0000_0000_0000]) = .next t :=
  ⟨⟨by decide +kernel, by decide +kernel, by decide +kernel, by decide +kernel, by decide +kernel⟩, ⟨_, rfl⟩⟩
theorem test_hyps_ResetHasTheInvariants : Config.cfg0.numerics = .exact := by decide +kernel
theorem test_hyps_ConfigurationIsStaticAndOutputUnread :
    ∃ t, step (withPort State.reset [.command 0 0xB_0000_0000_0000]) = .next t := ⟨_, rfl⟩
theorem test_hyps_OnlyPollReadsNow : Instr.spos ≠ .poll ∧ ∃ t, exec .spos (idle 0 [100, 50, 100]) = .next t :=
  ⟨by decide, ⟨_, rfl⟩⟩
/-- Two idle machines with different gesture registers. -/
theorem test_hyps_IdleGestureRegistersAreUnread :
    SameInUse (withPort (idle 0 []) [.command 0 0xA_0000_0000_0000])
        (withPort (mk Config.cfg0 { calibrated100 with startPos := 1, prevTime := 9 } 0 [])
          [.command 0 0xA_0000_0000_0000])
      ∧ withPort (idle 0 []) [.command 0 0xA_0000_0000_0000]
        ≠ withPort (mk Config.cfg0 { calibrated100 with startPos := 1, prevTime := 9 } 0 [])
          [.command 0 0xA_0000_0000_0000]
      ∧ ∃ t, step (withPort (idle 0 []) [.command 0 0xA_0000_0000_0000]) = .next t :=
  ⟨by unfold SameInUse; decide +kernel, by decide +kernel, ⟨_, rfl⟩⟩
/-- The boot order of R232: CAL, then SPOS; and the SPOS itself, on a calibrated block. -/
theorem test_hyps_BootOrderMeansCalibrated :
    (calibratesFirst false [.command 0 0x8_0000_0000_0001, .command 0 0x9_0000_0000_0000] = true
      ∧ ∃ t, step (withPort State.reset [.command 0 0x8_0000_0000_0001, .command 0 0x9_0000_0000_0000]) = .next t)
    ∧ calibratesFirst (idle 0 []).blk.calibrated [.command 0 0x9_0000_0000_0000] = true
      ∧ bootRole (decodeCommand 0x9_0000_0000_0000) = .samples
      ∧ ∃ t, step (withPort (idle 0 []) [.command 0 0x9_0000_0000_0000]) = .next t :=
  ⟨⟨by decide +kernel, ⟨_, rfl⟩⟩, by decide +kernel, by decide +kernel, ⟨_, rfl⟩⟩

/-- A word with no row in the table is moved bit 15 first (R54) and changes no state of the block (R61). -/
theorem test_other_frame : step (withPort State.reset [.frame 0b0000000000000001])
    = .next { State.reset with out := { wire := [.select, .settle, .bit false, .bit false, .bit false, .bit false,
        .bit false, .bit false, .bit false, .bit false, .bit false, .bit false, .bit false, .bit false, .bit false,
        .bit false, .bit false, .bit true, .settle, .deselect] } } := by rfl

end Sys2Proof.Tests
end

section
/-! PROOF. The parameters of 00_scope.md: which ones there is a model instance for (R6, R7). -/

namespace Sys2Proof.Proofs

theorem legal_iff_ranges (p : Params) : p.legal = true ↔
    2 ≤ p.maxPads ∧ 2 ≤ p.padCount ∧ p.padCount ≤ p.maxPads ∧ 1 ≤ p.readingWidth
      ∧ 0 ≤ p.dropFraction ∧ p.dropFraction ≤ 1 ∧ p.sampleIntervalMs < 2 ^ 32
      ∧ 0 < p.maxVelocity ∧ 0 ≤ p.deadzone ∧ p.fsoShift ≤ 7 := by
  simp only [Params.legal, Bool.and_eq_true, decide_eq_true_eq, and_assoc]

theorem ofParams_eq_none_iff_not_legal (p : Params) : Config.ofParams p = none ↔ ¬ p.legal = true := by
  by_cases h : p.legal = true <;> simp [Config.ofParams, h]

/-- Settles O42: instantiation refuses exactly the parameters that `Params.legal` rejects, and `Params.legal` is the
conjunction of R6's ranges. -/
theorem illegalParametersAreRefused : Obligations.IllegalParametersAreRefused := fun p =>
  (ofParams_eq_none_iff_not_legal p).trans (not_congr (legal_iff_ranges p))

end Sys2Proof.Proofs
end

section
/-! PROOF. What the codec and packer operations read and write (10_state.md R22). -/

namespace Sys2Proof.Proofs

open Sys2Proof.Machine Sys2Proof.Safety

/-- With the read path present ENCR is a codec operation and not a reserved code (R102, R105). -/
theorem exec_encr_of_hasReadPath {s : State} (h : s.cfg.hasReadPath = true) (a : Operand) :
    exec (.encr a) s = .next (respond { frame := readFrameOf a } s) := by
  simp [exec, execEncr, h]

theorem hasReadPath_of_encr_not_reserved {cfg : Config} {a : Operand} (h : isReserved cfg (.encr a) = false) :
    cfg.hasReadPath = true := by
  simpa [isReserved] using h

/-- Settles O12: of the seven operations only ENCR (the read path) and PKCT (the shift of `fsoMode`) read the
configuration; the response of each of the others is a function of its operands alone. -/
theorem codecAndPackerArePure : Obligations.CodecAndPackerArePure := by
  intro cfg i hi hres
  cases i with
  | encw a b => exact ⟨{ frame := writeFrameOf a b }, fun s _ => rfl⟩
  | encr a =>
    refine ⟨{ frame := readFrameOf a }, fun s hs => exec_encr_of_hasReadPath ?_ a⟩
    rw [hs]
    exact hasReadPath_of_encr_not_reserved hres
  | decf a => exact ⟨decodedFrame a, fun s _ => rfl⟩
  | pkbc a b => exact ⟨{ payload := placeField 2 8 a ||| placeField 8 0 b }, fun s _ => rfl⟩
  | pkot a b => exact ⟨{ payload := placeField 5 5 a ||| placeField 5 0 b }, fun s _ => rfl⟩
  | pkct a b c =>
    refine ⟨{ payload := placeField 3 cfg.fsoShift a ||| placeField 1 1 b ||| placeField 1 0 c }, fun s hs => ?_⟩
    rw [← hs]
    rfl
  | pktr a b c =>
    exact ⟨{ payload := placeField 1 9 a ||| placeField 1 8 b ||| placeField 8 0 c }, fun s _ => rfl⟩
  | _ => cases hi

end Sys2Proof.Proofs
end

section
/-! PROOF. The operand bits a command reads (30_encoding.md R71, the operand column of R72). -/

namespace Sys2Proof.Proofs

open Sys2Proof.Machine Sys2Proof.Safety Sys2Proof.Laws

/-- A port that is used whole: its low 16 bits are all there is of it. -/
theorem operand_eq_of_mod_eq {v v' : Operand} (h : v.toNat % 2 ^ 16 = v'.toNat % 2 ^ 16) : v = v' := by
  simpa using setWidth_congr h

section UsedBits

variable {a a' b b' c c' : Operand} (s : State)

theorem exec_encw_congr (ha : a.toNat % 2 ^ 4 = a'.toNat % 2 ^ 4) (hb : b.toNat % 2 ^ 10 = b'.toNat % 2 ^ 10) :
    exec (.encw a b) s = exec (.encw a' b') s := by
  simp only [exec, execEncw, writeFrameOf, mask_congr ha, mask_congr hb]

theorem exec_encr_congr (ha : a.toNat % 2 ^ 5 = a'.toNat % 2 ^ 5) : exec (.encr a) s = exec (.encr a') s := by
  simp only [exec, execEncr, readFrameOf, mask_congr ha]

theorem exec_decf_congr (ha : a.toNat % 2 ^ 16 = a'.toNat % 2 ^ 16) : exec (.decf a) s = exec (.decf a') s := by
  rw [operand_eq_of_mod_eq ha]

theorem exec_pkbc_congr (ha : a.toNat % 2 ^ 2 = a'.toNat % 2 ^ 2) (hb : b.toNat % 2 ^ 8 = b'.toNat % 2 ^ 8) :
    exec (.pkbc a b) s = exec (.pkbc a' b') s := by
  simp only [exec, execPkbc, placeField_congr ha, placeField_congr hb]

theorem exec_pkot_congr (ha : a.toNat % 2 ^ 5 = a'.toNat % 2 ^ 5) (hb : b.toNat % 2 ^ 5 = b'.toNat % 2 ^ 5) :
    exec (.pkot a b) s = exec (.pkot a' b') s := by
  simp only [exec, execPkot, placeField_congr ha, placeField_congr hb]

theorem exec_pkct_congr (ha : a.toNat % 2 ^ 3 = a'.toNat % 2 ^ 3) (hb : b.toNat % 2 ^ 1 = b'.toNat % 2 ^ 1)
    (hc : c.toNat % 2 ^ 1 = c'.toNat % 2 ^ 1) : exec (.pkct a b c) s = exec (.pkct a' b' c') s := by
  simp only [exec, execPkct, placeField_congr ha, placeField_congr hb, placeField_congr hc]

theorem exec_pktr_congr (ha : a.toNat % 2 ^ 1 = a'.toNat % 2 ^ 1) (hb : b.toNat % 2 ^ 1 = b'.toNat % 2 ^ 1)
    (hc : c.toNat % 2 ^ 8 = c'.toNat % 2 ^ 8) : exec (.pktr a b c) s = exec (.pktr a' b' c') s := by
  simp only [exec, execPktr, placeField_congr ha, placeField_congr hb, placeField_congr hc]

theorem exec_cal_congr (ha : a.toNat % 2 ^ 16 = a'.toNat % 2 ^ 16) (hb : b.toNat % 2 ^ 16 = b'.toNat % 2 ^ 16) :
    exec (.cal a b) s = exec (.cal a' b') s := by
  rw [operand_eq_of_mod_eq ha, operand_eq_of_mod_eq hb]

end UsedBits

/-- Settles O13: by op code, an operation that uses operands reads them through `mask` or `placeField` at the widths of
R72 (or whole: DECF, CAL); the ones without operands and the reserved codes give an outcome that mentions no port. -/
theorem operandBitsOutsideFieldsAreIgnored : Obligations.OperandBitsOutsideFieldsAreIgnored := by
  intro op a a' b b' c c' s ha hb hc
  simp only [decodeCommand, commandWord_op, commandWord_a, commandWord_b, commandWord_c]
  split
  · rfl -- reserved 0x0
  · exact exec_encw_congr s ha hb
  · exact exec_encr_congr s ha
  · exact exec_decf_congr s ha
  · exact exec_pkbc_congr s ha hb
  · exact exec_pkot_congr s ha hb
  · exact exec_pkct_congr s ha hb hc
  · exact exec_pktr_congr s ha hb hc
  · exact exec_cal_congr s ha hb
  all_goals rfl -- SPOS, POLL, RDST and the reserved 0xC to 0xF

end Sys2Proof.Proofs
end

section
/-! PROOF. The fields of the frames that ENCW and ENCR build and the fields that DECF reports (40_frame_codec.md R101,
R102, R103). -/

namespace Sys2Proof.Proofs

open Sys2Proof.Machine Sys2Proof.Laws

/-! ### The write frame (R76, R101) -/

theorem writeFrameOf_direction (a b : Operand) : (writeFrameOf a b).extractLsb' 15 1 = 1#1 := by
  apply BitVec.eq_of_getLsbD_eq
  intro i hi
  obtain rfl : i = 0 := by omega
  rw [BitVec.getLsbD_extractLsb', writeFrameOf_getLsbD (by omega) (by omega)]
  simp

theorem writeFrameOf_address (a b : Operand) : (writeFrameOf a b).extractLsb' 11 4 = a.extractLsb' 0 4 := by
  apply extract_eq
  intro i hi
  have hlow : ¬ 11 + i < 10 := by omega
  have hhigh : 11 + i < 15 := by omega
  rw [writeFrameOf_getLsbD (by omega) (by omega)]
  simp [hlow, hhigh]

theorem writeFrameOf_payload (a b : Operand) : (writeFrameOf a b).extractLsb' 0 10 = b.extractLsb' 0 10 := by
  apply extract_eq
  intro i hi
  rw [writeFrameOf_getLsbD (by omega) (by omega)]
  simp [hi]

/-! ### The read frame (R77, R102) -/

theorem readFrameOf_direction (a : Operand) : (readFrameOf a).extractLsb' 15 1 = 0#1 := by
  apply BitVec.eq_of_getLsbD_eq
  intro i hi
  obtain rfl : i = 0 := by omega
  rw [BitVec.getLsbD_extractLsb', readFrameOf_getLsbD (by omega) (by omega)]
  simp

theorem readFrameOf_address (a : Operand) : (readFrameOf a).extractLsb' 10 5 = a.extractLsb' 0 5 := by
  apply extract_eq
  intro i hi
  have hhigh : 10 + i < 15 := by omega
  rw [readFrameOf_getLsbD (by omega) (by omega)]
  simp [hhigh]

theorem readFrameOf_reserved (a : Operand) : (readFrameOf a).extractLsb' 0 9 = 0#9 := by
  apply BitVec.eq_of_getLsbD_eq
  intro i hi
  have hlow : i < 10 := by omega
  rw [BitVec.getLsbD_extractLsb', readFrameOf_getLsbD (by omega) (by omega)]
  simp [hlow]

/-! ### The report of a frame (R103) -/

theorem parityOk_toNat (f : Frame) : (parityOk f).toNat = popcount f % 2 := by
  simp [parityOk]

theorem flag_eq_one_iff (p : Bool) : flag p = 1#1 ↔ p = true := by
  cases p <;> simp [flag]

theorem decodedFrame_of_write {f : Frame} (h : f.extractLsb' 15 1 = 1#1) :
    decodedFrame f = { dDir := 1#1, dAddr := (f.extractLsb' 11 4).setWidth 5, dData := f.extractLsb' 0 10,
                       parityOk := parityOk f, rsvOk := 1#1 } :=
  if_pos h

theorem decodedFrame_of_read {f : Frame} (h : f.extractLsb' 15 1 = 0#1) :
    decodedFrame f = { dDir := 0#1, dAddr := f.extractLsb' 10 5, dData := (f.extractLsb' 0 9).setWidth 10,
                       parityOk := parityOk f, rsvOk := flag (f.extractLsb' 0 9 == 0#9) } :=
  if_neg (by simp [h])

/-- The address field of a write frame, as a number. -/
theorem writeAddress_toNat (f : Frame) :
    ((f.extractLsb' 11 4).setWidth 5).toNat = f.toNat / 2 ^ 11 % 16 := by
  simp only [BitVec.toNat_setWidth, BitVec.extractLsb'_toNat, Nat.shiftRight_eq_div_pow]
  omega

/-- The address field of a read frame, as a number. -/
theorem readAddress_toNat (f : Frame) : (f.extractLsb' 10 5).toNat = f.toNat / 2 ^ 10 % 32 := by
  simp only [BitVec.extractLsb'_toNat, Nat.shiftRight_eq_div_pow]

/-- Bits 8:0 of a read frame, reported in the ten bits of `dData`. -/
theorem readData_toNat (f : Frame) : ((f.extractLsb' 0 9).setWidth 10).toNat = f.toNat % 512 := by
  rw [BitVec.toNat_setWidth, extract_low_toNat]
  omega

/-- The reserved-bits check of a read frame passes when bits 8:0 are zero. -/
theorem readReserved_eq_one_iff (f : Frame) : flag (f.extractLsb' 0 9 == 0#9) = 1#1 ↔ f.toNat % 512 = 0 := by
  rw [flag_eq_one_iff, beq_iff_eq, ← BitVec.toNat_inj, extract_low_toNat]
  rfl

/-! ### The obligations -/

/-- Settles O1: the frame is `writeFrameOf a b`, whose fields are read off its bits and whose parity bit makes the
popcount odd. -/
theorem encwBuildsTheWriteFrame : Obligations.EncwBuildsTheWriteFrame := by
  intro a b c s
  refine ⟨by simp [decodeCommand], writeFrameOf a b, rfl, ?_⟩
  exact ⟨writeFrameOf_direction a b, writeFrameOf_address a b, writeFrameOf_payload a b, writeFrameOf_odd a b⟩

/-- Settles O2: with the read path present the frame is `readFrameOf a`, whose fields are read off its bits and whose
parity bit makes the popcount odd. -/
theorem encrBuildsTheReadFrame : Obligations.EncrBuildsTheReadFrame := by
  intro a b c s
  refine ⟨by simp [decodeCommand], fun hread => ⟨readFrameOf a, exec_encr_of_hasReadPath hread a, ?_⟩⟩
  exact ⟨readFrameOf_direction a, readFrameOf_address a, readFrameOf_reserved a, readFrameOf_odd a⟩

/-- Settles O3: bit 15 tells the kind of frame, and for each kind the fields of the report are numbers read off the
frame. -/
theorem decfReportsTheFields : Obligations.DecfReportsTheFields := by
  intro f b c s
  refine ⟨by simp [decodeCommand], decodedFrame f, rfl, ?_⟩
  obtain hread | hwrite := BitVec.eq_zero_or_eq_one (f.extractLsb' 15 1)
  · rw [decodedFrame_of_read hread]
    refine ⟨rfl, hread.symm, parityOk_toNat f, fun (hdir : 0#1 = 1#1) => absurd hdir (by decide), fun _ => ?_⟩
    exact ⟨readAddress_toNat f, readData_toNat f, readReserved_eq_one_iff f⟩
  · rw [decodedFrame_of_write hwrite]
    refine ⟨rfl, hwrite.symm, parityOk_toNat f, fun _ => ?_, fun (hdir : 1#1 = 0#1) => absurd hdir (by decide)⟩
    exact ⟨writeAddress_toNat f, extract_low_toNat f 10, rfl⟩

end Sys2Proof.Proofs
end

section
/-! PROOF. The ten-bit payloads that PKBC, PKOT, PKCT and PKTR pack (41_payload_packer.md R120 to R124). -/

namespace Sys2Proof.Proofs

open Sys2Proof.Machine Sys2Proof.Laws

/-! ### A placed field as seen from a bit range of the payload (R120) -/

/-- A placed field that lies inside the payload is read back at its own place. -/
theorem extract_placeField_same {w lo : Nat} (v : Operand) (hfit : lo + w ≤ 10) :
    (placeField w lo v).extractLsb' lo w = v.extractLsb' 0 w := by
  apply extract_eq
  intro i hi
  have hinside : lo + i < 10 := by omega
  rw [getLsbD_placeField]
  simp [hinside, hi]

/-- A placed field contributes nothing to a bit range that lies wholly above or below it. -/
theorem extract_placeField_apart {w lo lo' len : Nat} (v : Operand) (hapart : lo' + len ≤ lo ∨ lo + w ≤ lo') :
    (placeField w lo v).extractLsb' lo' len = 0#len := by
  apply BitVec.eq_of_getLsbD_eq
  intro i hi
  have hout : ¬ (lo ≤ lo' + i ∧ lo' + i < lo + w) := by omega
  rw [BitVec.getLsbD_extractLsb', getLsbD_placeField]
  grind

/-- Of two placed fields the upper one is read back where the lower one does not reach. -/
theorem extract_or_placeField_upper {w lo w' lo' : Nat} (v v' : Operand) (hfit : lo + w ≤ 10)
    (hapart : lo' + w' ≤ lo) :
    (placeField w lo v ||| placeField w' lo' v').extractLsb' lo w = v.extractLsb' 0 w := by
  rw [BitVec.extractLsb'_or, extract_placeField_same v hfit, extract_placeField_apart v' (.inr hapart), BitVec.or_zero]

/-- Of two placed fields the lower one is read back where the upper one has not begun. -/
theorem extract_or_placeField_lower {w lo w' lo' : Nat} (v v' : Operand) (hfit : lo' + w' ≤ 10)
    (hapart : lo' + w' ≤ lo) :
    (placeField w lo v ||| placeField w' lo' v').extractLsb' lo' w' = v'.extractLsb' 0 w' := by
  rw [BitVec.extractLsb'_or, extract_placeField_same v' hfit, extract_placeField_apart v (.inl hapart), BitVec.zero_or]

/-- A one-bit field is bit 0 of its operand, on the one bit where it is placed. -/
theorem getLsbD_placeField_oneBit {lo j : Nat} (v : Operand) (hj : j < 10) :
    (placeField 1 lo v).getLsbD j = (j == lo && v.getLsbD 0) := by
  rw [getLsbD_placeField]
  by_cases hlo : j = lo
  · simp [hlo ▸ hj, hlo]
  · have hout : ¬ (lo ≤ j ∧ j < lo + 1) := by omega
    grind

/-! ### The obligations -/

/-- Settles O9: bit by bit, `fsoMode` covers the three bits from FSO_SHIFT on and each enable covers its one bit, and
the payload is their OR whether they overlap or not. -/
theorem pkctOrsTheOverlappingFields : Obligations.PkctOrsTheOverlappingFields := by
  intro a b c s
  refine ⟨by simp [decodeCommand],
    placeField 3 s.cfg.fsoShift a ||| placeField 1 1 b ||| placeField 1 0 c, rfl, fun j hj => ?_⟩
  rw [BitVec.getLsbD_or, BitVec.getLsbD_or, getLsbD_placeField_oneBit b hj, getLsbD_placeField_oneBit c hj,
    getLsbD_placeField]
  simp [hj]

/-- Settles O7: the two fields of R80 meet at bit 8 and do not overlap. -/
theorem pkbcPacksBuckCurrent : Obligations.PkbcPacksBuckCurrent := by
  intro a b c s
  refine ⟨by simp [decodeCommand], placeField 2 8 a ||| placeField 8 0 b, rfl, ?_⟩
  exact ⟨extract_or_placeField_upper a b (by decide) (by decide),
    extract_or_placeField_lower a b (by decide) (by decide)⟩

/-- Settles O8: the two fields of R81 meet at bit 5 and do not overlap. -/
theorem pkotPacksOffTime : Obligations.PkotPacksOffTime := by
  intro a b c s
  refine ⟨by simp [decodeCommand], placeField 5 5 a ||| placeField 5 0 b, rfl, ?_⟩
  exact ⟨extract_or_placeField_upper a b (by decide) (by decide),
    extract_or_placeField_lower a b (by decide) (by decide)⟩

/-- Settles O10: each of the three fields of R83 is read back at its place, where the other two contribute nothing. -/
theorem pktrPacksThermalRecovery : Obligations.PktrPacksThermalRecovery := by
  intro a b c s
  refine ⟨by simp [decodeCommand], placeField 1 9 a ||| placeField 1 8 b ||| placeField 8 0 c, rfl, ?_, ?_, ?_⟩
  · rw [BitVec.extractLsb'_or, extract_or_placeField_upper a b (by decide) (by decide),
      extract_placeField_apart c (by decide), BitVec.or_zero]
  · rw [BitVec.extractLsb'_or, extract_or_placeField_lower a b (by decide) (by decide),
      extract_placeField_apart c (by decide), BitVec.or_zero]
  · rw [BitVec.extractLsb'_or, BitVec.extractLsb'_or, extract_placeField_apart a (by decide),
      extract_placeField_apart b (by decide), extract_placeField_same c (by decide), BitVec.or_zero, BitVec.zero_or]

end Sys2Proof.Proofs
end

section
/-! PROOF. What CAL and SPOS answer, write and ask for (42_slider.md R141, R142, R144 to R146, R148). -/

namespace Sys2Proof.Proofs

open Sys2Proof.Machine Sys2Proof.Safety Sys2Proof.Laws

/-! ### The two commands under every NUMERICS -/

/-- A calibration draws `n` readings of every pad and asks for them, and for the delays, pad-major. -/
theorem newBaselines_collab (s : State) (n : Nat) (dly : Operand) :
    (newBaselines s.cfg n dly s.cfg.padCount 0 (Collab.start s)).2 =
      { sampler := s.sampler.advance (s.cfg.padCount * n), asked := calibrationRequests s.cfg.padCount n dly } := by
  obtain ⟨-, hcollab, -⟩ := newBaselines_eq s.cfg n dly s.cfg.padCount 0 (Collab.start s)
  rw [hcollab]
  simp [Collab.start, calibrationRequests]

/-- With a sample, CAL stores the means of `newBaselines` and sets the calibration flag, and nothing else of the
block. -/
theorem exec_cal_of_ne_zero (s : State) {a : Operand} (b : Operand) (ha : a ≠ 0#16) :
    exec (.cal a b) s = .next { s with
      blk := { s.blk with
        baseline := (newBaselines s.cfg a.toNat b s.cfg.padCount 0 (Collab.start s)).1
        calibrated := true }
      sampler := s.sampler.advance (s.cfg.padCount * a.toNat)
      out := { response := some {}, requests := calibrationRequests s.cfg.padCount a.toNat b } } := by
  simp only [exec, execCal, if_neg ha, calibrate, respondAfter, newBaselines_collab]

/-- SPOS reads every pad once, in order, and answers the sample. -/
theorem exec_spos (s : State) : exec .spos s = .next { s with
    sampler := s.sampler.advance s.cfg.padCount
    out := { requests := sampleRequests s, response := some (sampleResponse (positionSample s).1) } } := by
  simp only [exec, execSpos, respondAfter, positionSample_collab]

/-- A response that answers no-touch or a position, as the two cases of the sample. -/
theorem sampleResponse_ite (c : Prop) [Decidable c] (x : ℚ) :
    sampleResponse (if c then .noTouch else .position x) = if c then {} else { posValid := 1#1, pos := x } := by
  split <;> rfl

/-! ### The obligations -/

/-- Settles O14: no samples is the raise of BAD_OPERAND; otherwise the means that CAL stores are, in exact arithmetic,
the ones `newBaselines_eq` finds by induction over the pads and over each pad's readings. -/
theorem calStoresTheMeans : Obligations.CalStoresTheMeans := by
  intro a b c s
  refine ⟨by simp [decodeCommand], rfl, fun hexact ha => ?_⟩
  obtain ⟨-, -, hmeans⟩ := newBaselines_eq s.cfg a.toNat b s.cfg.padCount 0 (Collab.start s)
  rw [exec_cal_of_ne_zero s b ha, hmeans hexact]
  rfl

/-- Settles O15: the position sample is the centroid of R145 by `positionSample_exact`, and SPOS answers that sample
with the reads of one pass over the pads. -/
theorem sposAnswersTheCentroid : Obligations.SposAnswersTheCentroid := by
  intro a b c s
  refine ⟨by simp [decodeCommand], fun hexact => ⟨?_, ?_⟩⟩
  · exact Prod.ext (positionSample_exact s hexact) (positionSample_collab s)
  · rw [exec_spos, positionSample_exact s hexact, sampleResponse_ite]

end Sys2Proof.Proofs
end

section
/-! PROOF. What a poll answers and writes: the rate limiter and the branches of the gesture machine
(43_gesture.md R171 to R176). -/

namespace Sys2Proof.Proofs

open Sys2Proof.Machine Sys2Proof.Safety Sys2Proof.Laws

/-! ### The rate limiter (R171, R172) -/

theorem pollAccepted_eq_false_iff (s : State) : pollAccepted s = false ↔
    s.blk.haveAccept = true ∧ (s.now - s.blk.lastAccept).toNat < s.cfg.sampleIntervalMs := by
  simp [pollAccepted]

/-- An accepted poll, given what the gesture machine makes of the sample. -/
theorem exec_poll_of_gestureStep {s : State} {b : Block} {e : GestureEvent}
    (hdue : s.blk.haveAccept = false ∨ s.cfg.sampleIntervalMs ≤ (s.now - s.blk.lastAccept).toNat)
    (hstep : gestureStep s.cfg s.now (positionSample s).1 (acceptAt s.now s.blk) = (b, e)) :
    exec .poll s = .next { s with
      blk := b
      sampler := s.sampler.advance s.cfg.padCount
      out := { response := some (eventResponse e), requests := sampleRequests s } } := by
  rw [execPoll_due ((pollAccepted_iff s).2 hdue), acceptedPoll_eq, hstep]

/-- Whatever the event, the response says that the poll was accepted. -/
@[simp] theorem eventResponse_accepted (e : GestureEvent) : (eventResponse e).accepted = 1#1 := by
  cases e <;> rfl

/-! ### The branches of the gesture machine (R173 to R175) -/

section Branches

variable {cfg : Config} {now : Time} {b : Block}

theorem gestureStep_noTouch_of_idle (hidle : b.gstate = .idle) : gestureStep cfg now .noTouch b = (b, .none) := by
  simp [gestureStep, hidle, pollIdle]

theorem gestureStep_position_of_idle (hidle : b.gstate = .idle) (x : ℚ) : gestureStep cfg now (.position x) b =
    ({ b with gstate := .active, startPos := x, startTime := now, prevPos := x, prevTime := now }, .none) := by
  simp [gestureStep, hidle, pollIdle]

theorem gestureStep_position_of_active (hactive : b.gstate = .active) (x : ℚ) :
    gestureStep cfg now (.position x) b = pollTouched cfg now x b := by
  simp [gestureStep, hactive]

theorem gestureStep_noTouch_of_active (hactive : b.gstate = .active) :
    gestureStep cfg now .noTouch b = pollReleased cfg now b := by
  simp [gestureStep, hactive]

/-- `dt_ms` is 0 exactly when NOW is the recorded time. -/
theorem elapsed_eq_zero_iff (now before : Time) : now - before = 0#32 ↔ now = before := by
  bv_omega

theorem pollTouched_of_dt_zero (hdt : now = b.prevTime) (x : ℚ) : pollTouched cfg now x b = (b, .none) :=
  if_pos ((elapsed_eq_zero_iff _ _).2 hdt)

theorem pollTouched_of_dt_ne_zero (hexact : cfg.numerics = .exact) (hdt : now ≠ b.prevTime) (x : ℚ) :
    pollTouched cfg now x b = ({ b with prevPos := x, prevTime := now },
      let m := motion cfg (x - b.prevPos) (now - b.prevTime).toNat
      if 0 < m.2 then .motion m.1 m.2 else .none) := by
  have hdt' : ¬ now - b.prevTime = 0#32 := mt (elapsed_eq_zero_iff _ _).1 hdt
  simp only [pollTouched, if_neg hdt', hexact, arith, exactOp]

theorem pollReleased_of_dt_zero (hdt : now = b.startTime) :
    pollReleased cfg now b = ({ b with gstate := .idle }, .none) :=
  if_pos ((elapsed_eq_zero_iff _ _).2 hdt)

theorem pollReleased_of_dt_ne_zero (hexact : cfg.numerics = .exact) (hdt : now ≠ b.startTime) :
    pollReleased cfg now b = ({ b with gstate := .idle },
      let m := motion cfg (b.prevPos - b.startPos) (now - b.startTime).toNat
      if 0 < m.2 then .ended m.1 m.2 else .none) := by
  have hdt' : ¬ now - b.startTime = 0#32 := mt (elapsed_eq_zero_iff _ _).1 hdt
  simp only [pollReleased, if_neg hdt', hexact, arith, exactOp]

end Branches

/-! ### The obligations -/

/-- Settles O23: with both parts of the rate limiter's test failing, POLL only answers the empty response. -/
theorem earlyPollIsANoOp : Obligations.EarlyPollIsANoOp := fun s haccept hearly =>
  execPoll_early ((pollAccepted_eq_false_iff s).2 ⟨haccept, hearly⟩)

/-- Settles O24: by the rate limiter's decision; an accepted poll writes the block only through `acceptAt` and then the
gesture machine, which keeps these fields (`gestureStep_keeps`). -/
theorem pollIsAcceptedWhenDue : Obligations.PollIsAcceptedWhenDue := by
  intro x y z s
  refine ⟨by simp [decodeCommand], ?_⟩
  cases haccepted : pollAccepted s with
  | false =>
    refine ⟨s.blk, s.sampler, [], {}, execPoll_early haccepted, fun hdue => ?_,
      fun _ => ⟨rfl, rfl, rfl, rfl⟩, rfl, rfl, rfl⟩
    rw [← pollAccepted_iff, haccepted] at hdue
    cases hdue
  | true =>
    obtain ⟨hbase, hcal, herr, hlast, hhave⟩ :=
      gestureStep_keeps s.cfg s.now (positionSample s).1 (acceptAt s.now s.blk)
    have hdue := (pollAccepted_iff s).1 haccepted
    refine ⟨_, _, _, _, exec_poll_of_gestureStep hdue rfl,
      fun _ => ⟨eventResponse_accepted _, hlast, hhave, rfl, rfl⟩, fun hearly => ?_, hbase, hcal, herr⟩
    rw [← pollAccepted_eq_false_iff, haccepted] at hearly
    cases hearly

/-- Settles O25: the two branches of the gesture machine in Idle, neither of which reports an event. -/
theorem idlePollStartsAGesture : Obligations.IdlePollStartsAGesture := by
  refine fun s hdue hidle => ⟨fun hsample => ?_, fun x hsample => ?_⟩
  · have hstep := gestureStep_noTouch_of_idle (cfg := s.cfg) (now := s.now) (b := acceptAt s.now s.blk) hidle
    rw [← hsample] at hstep
    exact exec_poll_of_gestureStep hdue hstep
  · have hstep := gestureStep_position_of_idle (cfg := s.cfg) (now := s.now) (b := acceptAt s.now s.blk) hidle x
    rw [← hsample] at hstep
    exact exec_poll_of_gestureStep hdue hstep

/-- Settles O26: in Active with a position the gesture machine is `pollTouched`; its event is the motion of R176 since
the previous sample, or none when no time has passed since. -/
theorem activePollReportsMotion : Obligations.ActivePollReportsMotion := by
  intro s x hexact hdue hactive hsample
  have hstep := gestureStep_position_of_active (cfg := s.cfg) (now := s.now) (b := acceptAt s.now s.blk) hactive x
  constructor
  · rintro hdt v q m rfl rfl rfl
    rw [pollTouched_of_dt_ne_zero (b := acceptAt s.now s.blk) hexact hdt, ← hsample] at hstep
    rw [exec_poll_of_gestureStep hdue hstep, motion_exact hexact, eventResponse_motion]
    rfl
  · intro hdt
    rw [pollTouched_of_dt_zero (b := acceptAt s.now s.blk) hdt, ← hsample] at hstep
    exact exec_poll_of_gestureStep hdue hstep

/-- Settles O27: in Active with no touch the gesture machine is `pollReleased`; its event is the motion of R176 over
the whole gesture, or none when no time has passed since its start. -/
theorem releasePollReportsTheGesture : Obligations.ReleasePollReportsTheGesture := by
  rintro s hexact hdue hactive hsample v q m rfl rfl rfl
  have hstep := gestureStep_noTouch_of_active (cfg := s.cfg) (now := s.now) (b := acceptAt s.now s.blk) hactive
  rw [← hsample] at hstep
  by_cases hdt : s.now = s.blk.startTime
  · rw [pollReleased_of_dt_zero (b := acceptAt s.now s.blk) hdt] at hstep
    rw [exec_poll_of_gestureStep hdue hstep, if_neg (fun hevent => hevent.1 hdt)]
    rfl
  · rw [pollReleased_of_dt_ne_zero (b := acceptAt s.now s.blk) hexact hdt] at hstep
    rw [exec_poll_of_gestureStep hdue hstep, motion_exact hexact, eventResponse_ended]
    simp only [ne_eq, hdt, not_false_eq_true, true_and]
    rfl

end Sys2Proof.Proofs
end

section
/-! PROOF. The status word of RDST and the reserved op codes (44_status.md R201 to R203). -/

namespace Sys2Proof.Proofs

open Sys2Proof.Machine Sys2Proof.Safety Sys2Proof.Laws

/-! ### The status word (R31, R201) -/

theorem flag_getLsbD_zero (p : Bool) : (flag p).getLsbD 0 = p := by
  cases p <;> rfl

/-- The four fields of the status word, each on its own bit. -/
theorem statusWord_getLsbD (b : Block) (k : Nat) (hk : k < 4) : (statusWord b).getLsbD k =
    [b.calibrated, decide (b.gstate = .active), b.err.getLsbD 0, b.err.getLsbD 1][k] := by
  simp only [statusWord, BitVec.getLsbD_setWidth, BitVec.getLsbD_append, BitVec.getLsbD_extractLsb']
  interval_cases k <;> simp [-BitVec.getLsbD_eq_getElem, flag_getLsbD_zero, beq_eq_decide]

/-- The word above its four status bits is zero-extension. -/
theorem statusWord_upper (b : Block) {k : Nat} (hk : 4 ≤ k) : (statusWord b).getLsbD k = false := by
  rw [statusWord, BitVec.getLsbD_setWidth, BitVec.getLsbD_of_ge _ _ hk, Bool.and_false]

/-! ### The reserved op codes (R73, R202, R203) -/

/-- Which op codes decode to a reserved command, read off the rows of R72 one op code at a time. -/
theorem isReserved_commandWord_iff (op : BitVec 4) (a b c : Operand) (cfg : Config) :
    isReserved cfg (decodeCommand (commandWord op a b c)) = true
      ↔ op.toNat = 0 ∨ 0xC ≤ op.toNat ∨ (op.toNat = 2 ∧ cfg.hasReadPath = false) := by
  obtain ⟨n, rfl, hlt⟩ : ∃ n, op = BitVec.ofNat 4 n ∧ n < 16 := ⟨op.toNat, by simp, op.isLt⟩
  interval_cases n <;> simp [decodeCommand, isReserved]

/-- Without the read path the op code of ENCR is reserved, and its operand is not read (R105, R203). -/
theorem exec_encr_of_no_readPath {s : State} (h : s.cfg.hasReadPath = false) (a : Operand) :
    exec (.encr a) s = .next (raise .illegalCmd s) := by
  simp [exec, execEncr, h]

/-- A command that is not reserved can set only bit 1 of the error flags. -/
theorem errAfter_illegalCmd_of_not_reserved {cfg : Config} {i : Instr} (h : isReserved cfg i = false)
    (err : BitVec 2) : (errAfter cfg i err).getLsbD 0 = err.getLsbD 0 := by
  cases hbad : raisesBadOperand i <;> simp [errAfter, h, hbad]

/-! ### The obligations -/

/-- Settles O34: the answer is `statusWord` of the block, whose bits are its four fields and zeros above them. -/
theorem rdstReadsTheStatusWord : Obligations.RdstReadsTheStatusWord := by
  intro x y z s
  refine ⟨by simp [decodeCommand], statusWord s.blk, rfl, ?_⟩
  exact ⟨statusWord_getLsbD s.blk 0 (by decide), statusWord_getLsbD s.blk 1 (by decide),
    statusWord_getLsbD s.blk 2 (by decide), statusWord_getLsbD s.blk 3 (by decide),
    fun _ hk => statusWord_upper s.blk hk⟩

/-- Settles O35: every reserved code is the raise of ILLEGAL_CMD; what any other command does to the error flags is
`errAfter`, which sets bit 0 for the reserved codes alone. -/
theorem reservedCodesRaiseIllegalCmd : Obligations.ReservedCodesRaiseIllegalCmd := by
  refine ⟨isReserved_commandWord_iff, ?_, ?_⟩
  · rintro a b c s t rfl
    exact ⟨rfl, rfl, rfl, rfl, rfl, fun hread => exec_encr_of_no_readPath hread a⟩
  · intro cw s hres
    obtain ⟨b, sm, o, hexec, heffect⟩ := exec_effect (decodeCommand cw) s
    refine ⟨_, hexec, ?_⟩
    change b.err.getLsbD 0 = s.blk.err.getLsbD 0
    rw [effect_err heffect, errAfter_illegalCmd_of_not_reserved hres]

end Sys2Proof.Proofs
end

section
/-! PROOF. What a step does to the command stream and to the error flags (60_exceptions.md R210, R212, R213). -/

namespace Sys2Proof.Proofs

open Sys2Proof.Machine Sys2Proof.Safety Sys2Proof.Laws

/-! ### The step, by its oldest event -/

section OldestEvent

variable {s : State} {rest : List PortEvent}

theorem step_of_command {now : Time} {cw : CommandWord} (hport : s.port = .command now cw :: rest) :
    step s = exec (decodeCommand cw) { s with port := rest, now := now } := by
  rw [step, hport]

theorem step_of_frame {f : Frame} (hport : s.port = .frame f :: rest) :
    step s = .next (transfer f { s with port := rest }) := by
  rw [step, hport, ← runFrame_eq]

theorem step_of_no_event (hport : s.port = []) : step s = .next s := by
  rw [step, hport]

end OldestEvent

/-- An instruction completes from every state, leaves the events to come, and raises the flags of R212 alone. -/
theorem exec_completes (i : Instr) (s : State) : ∃ t : State,
    exec i s = .next t ∧ t.port = s.port ∧ t.blk.err = errAfter s.cfg i s.blk.err := by
  obtain ⟨b, sm, o, hexec, heffect⟩ := exec_effect i s
  exact ⟨_, hexec, rfl, effect_err heffect⟩

/-! ### The obligations -/

/-- Settles O37: a command sets the flags that `errAfter` sets, as its instruction does; moving a frame writes no field
of the block, and with no event the state stays. -/
theorem onlyTheListedConditionsRaise : Obligations.OnlyTheListedConditionsRaise := by
  intro s
  refine ⟨fun now cw rest hport => ?_, fun f rest hport => ?_, fun t hport hstep => ?_⟩
  · obtain ⟨t, hexec, -, herr⟩ := exec_completes (decodeCommand cw) { s with port := rest, now := now }
    exact ⟨t, (step_of_command hport).trans hexec, herr⟩
  · exact ⟨_, step_of_frame hport, rfl⟩
  · rw [step_of_no_event hport] at hstep
    cases hstep
    rfl

/-- Settles O36: every instruction completes and leaves the events to come, and the step has taken the command off them
before it runs. -/
theorem noOperationStops : Obligations.NoOperationStops := by
  refine ⟨fun cw s => ?_, fun now cw rest s hport => ?_⟩
  · obtain ⟨t, hexec, hkept, -⟩ := exec_completes (decodeCommand cw) s
    exact ⟨t, hexec, hkept⟩
  · obtain ⟨t, hexec, hkept, -⟩ := exec_completes (decodeCommand cw) { s with port := rest, now := now }
    exact ⟨t, (step_of_command hport).trans hexec, hkept⟩

end Sys2Proof.Proofs
end

section
/-! PROOF. The reset state and the reset input (70_reset_and_hazards.md R230, R231). -/

namespace Sys2Proof.Proofs

open Sys2Proof.Machine Sys2Proof.Laws

theorem step_of_reset {s : State} {rest : List PortEvent} (hport : s.port = .reset :: rest) :
    step s = .next (applyReset { s with port := rest }) := by
  rw [step, hport]

/-- The flags are sticky (R30, R25): a step whose oldest event is not the reset input clears none of them. -/
theorem step_keeps_flags {s t : State} (hstep : step s = .next t) (hreset : s.port.head? ≠ some .reset) :
    (∀ j, s.blk.err.getLsbD j = true → t.blk.err.getLsbD j = true)
      ∧ (s.blk.calibrated = true → t.blk.calibrated = true) := by
  cases step_effect hstep with
  | idle _ ht =>
    subst ht
    exact ⟨fun _ hset => hset, fun hset => hset⟩
  | reset rest hport _ => exact absurd (by rw [hport, List.head?_cons]) hreset
  | moved rest f _ ht =>
    subst ht
    exact ⟨fun _ hset => hset, fun hset => hset⟩
  | ran rest cw now b sm o _ heffect _ ht =>
    have hflags := effect_flags heffect
    subst ht
    exact hflags

/-- The four fields of the status word are constants of the reset block: only the number of baselines depends on the
configuration (R33). -/
theorem statusWord_reset (cfg : Config) : statusWord (Block.reset cfg) = 0x0000#16 := by
  simp [statusWord, Block.reset, flag]

theorem exec_rdst (s : State) : exec .rdst s = .next (respond { status := statusWord s.blk } s) := rfl

/-! ### The obligations -/

/-- Settles O40: the step that takes the reset input is `applyReset`, which writes the whole block; a step that clears
a flag cannot be one of those that `step_keeps_flags` speaks of. -/
theorem resetInputRestoresTheBlock : Obligations.ResetInputRestoresTheBlock := by
  refine ⟨fun s rest hport => step_of_reset hport, fun s t j hstep hcleared => ?_⟩
  by_contra hreset
  obtain ⟨herr, hcal⟩ := step_keeps_flags hstep hreset
  obtain ⟨hset, hclear⟩ | ⟨hset, hclear⟩ := hcleared
  · exact Bool.false_ne_true (hclear.symm.trans (herr j hset))
  · exact Bool.false_ne_true (hclear.symm.trans (hcal hset))

/-- Settles O41: the block after reset is `Block.reset`, and the word that RDST answers from it is zero. -/
theorem resetStateReadsStatusZero : Obligations.ResetStateReadsStatusZero := by
  intro cfg
  have hword : statusWord (State.resetWith cfg).blk = 0x0000#16 := statusWord_reset cfg
  refine ⟨rfl, ?_⟩
  rw [exec_rdst, hword, respond]

end Sys2Proof.Proofs
end

section
/-! PROOF. Every step answers a next state and takes the oldest event, and what stays set along a run
(60_exceptions.md R210, 10_state.md R25 and R30). -/

namespace Sys2Proof.Proofs

open Sys2Proof.Machine Sys2Proof.Laws

/-- A step takes the oldest event off the events to come, and adds none. -/
theorem step_port {s t : State} (hstep : step s = .next t) : t.port = s.port.tail := by
  cases step_effect hstep with
  | idle hport ht => rw [ht, hport, List.tail_nil]
  | reset rest hport ht => rw [ht, hport, List.tail_cons, applyReset_port]
  | moved rest f hport ht => rw [ht, hport, List.tail_cons, transfer_port]
  | ran rest cw now b sm o hport _ _ ht => rw [ht, hport, List.tail_cons]

theorem step_answers (s : State) : ∃ t : State, step s = .next t := by
  cases hport : s.port with
  | nil => exact ⟨_, step_of_no_event hport⟩
  | cons event rest =>
    cases event with
    | command now cw =>
      obtain ⟨t, hexec, -, -⟩ := exec_completes (decodeCommand cw) { s with port := rest, now := now }
      exact ⟨t, (step_of_command hport).trans hexec⟩
    | reset => exact ⟨_, step_of_reset hport⟩
    | frame f => exact ⟨_, step_of_frame hport⟩

/-- A run of `k + 1` steps is a step followed by a run of `k`. -/
theorem run_succ {k : Nat} {s t : State} (hrun : Host.Core.run Sys2Proof.core (k + 1) s = .next t) :
    ∃ u : State, step s = .next u ∧ Host.Core.run Sys2Proof.core k u = .next t := by
  obtain ⟨u, hstep⟩ := step_answers s
  have hcore : Sys2Proof.core.step s = .next u := hstep
  simp only [Host.Core.run, hcore] at hrun
  exact ⟨u, hstep, hrun⟩

/-! ### The obligations -/

/-- Settles O58: by the kind of the oldest event, each of which has an outcome. -/
theorem everyStepAnswersANextState : Obligations.EveryStepAnswersANextState := by
  intro s
  obtain ⟨t, hstep⟩ := step_answers s
  exact ⟨t, hstep, step_port hstep⟩

/-- Settles O38: by induction over the length of the run. No step adds a reset input to the events to come, so
`step_keeps_flags` applies at every step. -/
theorem flagsStaySetUntilReset : Obligations.FlagsStaySetUntilReset := by
  intro k
  induction k with
  | zero =>
    intro s t _ hrun
    cases hrun
    exact ⟨fun _ hset => hset, fun hset => hset⟩
  | succ k ih =>
    intro s t hnone hrun
    obtain ⟨u, hstep, hrest⟩ := run_succ hrun
    have hhead : s.port.head? ≠ some .reset := fun h => hnone (List.mem_of_mem_head? h)
    have hnone' : PortEvent.reset ∉ u.port := by
      rw [step_port hstep]
      exact fun h => hnone (List.mem_of_mem_tail h)
    obtain ⟨herr, hcal⟩ := step_keeps_flags hstep hhead
    obtain ⟨herr', hcal'⟩ := ih u t hnone' hrest
    exact ⟨fun j hset => herr' j (herr j hset), fun hset => hcal' (hcal hset)⟩

end Sys2Proof.Proofs
end

section
/-! PROOF. The decoder is a left inverse of the encoder, agrees with the opcode table and with the byte order of a split
frame (30_encoding.md parts 1, 2 and 4; 20_memory.md R58). -/

namespace Sys2Proof.Proofs

open Sys2Proof.Machine Sys2Proof.Laws

/-! ### Decoding of frames by kind (R79) -/

theorem decodeFrame_of_write {f : Frame} (h : f.extractLsb' 15 1 = 1#1) :
    decodeFrame f = .ok (.writeFrame (f.extractLsb' 11 4) (f.extractLsb' 10 1) (f.extractLsb' 0 10)) :=
  if_pos h

theorem decodeFrame_of_read {f : Frame} (h : f.extractLsb' 15 1 = 0#1) (hzero : f.extractLsb' 0 9 = 0#9) :
    decodeFrame f = .ok (.readFrame (f.extractLsb' 10 5) (f.extractLsb' 9 1)) := by
  rw [decodeFrame, if_neg (by simp [h]), if_pos hzero]

theorem decodeFrame_of_reservedBits {f : Frame} (h : f.extractLsb' 15 1 = 0#1) (hbits : f.extractLsb' 0 9 ≠ 0#9) :
    decodeFrame f = .error .readFrameReservedBits := by
  rw [decodeFrame, if_neg (by simp [h]), if_neg hbits]

/-! ### Decoding of encoded frames -/

theorem decode_encode_writeFrame (a : BitVec 4) (p : BitVec 1) (d : Payload) :
    decode (encode (.writeFrame a p d)) = .ok (.writeFrame a p d) := by
  obtain ⟨hdir, haddr, hpar, hdata⟩ := writeFrame_fields a p d rfl
  rw [encode, decode, decodeFrame_of_write hdir, haddr, hpar, hdata]

theorem decode_encode_readFrame (a : BitVec 5) (p : BitVec 1) :
    decode (encode (.readFrame a p)) = .ok (.readFrame a p) := by
  obtain ⟨hdir, haddr, hpar, hzero⟩ := readFrame_fields a p rfl
  rw [encode, decode, decodeFrame_of_read hdir hzero, haddr, hpar]

/-! ### The rows of the opcode table -/

/-- The row of the command with op code `op` (R70, R72). -/
def commandRow (op : BitVec 4) : OpRow := ⟨52, 0xf000000000000, op.toNat * 2 ^ 48⟩

/-- The row WRITE_FRAME (R76). -/
def writeFrameRow : OpRow := ⟨16, 0x8000, 0x8000⟩

/-- The row READ_FRAME (R77). -/
def readFrameRow : OpRow := ⟨16, 0x81ff, 0x0⟩

/-- The op code of the command row at place `k`. -/
def rowOp (k : Nat) : BitVec 4 :=
  [0x1#4, 0x2#4, 0x3#4, 0x4#4, 0x5#4, 0x6#4, 0x7#4, 0x8#4, 0x9#4, 0xA#4, 0xB#4, 0x0#4, 0xC#4, 0xD#4, 0xE#4,
    0xF#4].getD k 0

theorem opTable_row {k : Nat} {row : OpRow} (h : opTable[k]? = some row) :
    (k < 16 ∧ row = commandRow (rowOp k)) ∨ (k = 16 ∧ row = writeFrameRow) ∨ (k = 17 ∧ row = readFrameRow) := by
  obtain ⟨hk, -⟩ := List.getElem?_eq_some_iff.1 h
  have hk : k < 18 := hk
  interval_cases k <;> cases h <;> decide

/-- The places of the command rows and the op codes correspond. -/
theorem eq_opRowIndex_iff {k : Nat} (hk : k < 16) (op : BitVec 4) : k = opRowIndex op ↔ op = rowOp k := by
  revert op
  interval_cases k <;> decide

theorem opRowIndex_lt (op : BitVec 4) : opRowIndex op < 16 := by
  revert op
  decide

theorem commandRow_matches_command (op : BitVec 4) (cw : CommandWord) :
    (commandRow op).matches (.command cw) = true ↔ cw.extractLsb' 48 4 = op := by
  simp only [commandRow, OpRow.matches, PortWord.width, PortWord.bits, command_mask, ← BitVec.toNat_inj]
  simp

theorem commandRow_matches_frame (op : BitVec 4) (f : Frame) : (commandRow op).matches (.frame f) = false := rfl

theorem writeFrameRow_matches_command (cw : CommandWord) : writeFrameRow.matches (.command cw) = false := rfl

theorem readFrameRow_matches_command (cw : CommandWord) : readFrameRow.matches (.command cw) = false := rfl

theorem writeFrameRow_matches_frame (f : Frame) :
    writeFrameRow.matches (.frame f) = true ↔ f.extractLsb' 15 1 = 1#1 := by
  simp only [writeFrameRow, OpRow.matches, PortWord.width, PortWord.bits, writeFrame_mask, ← BitVec.toNat_inj]
  simp

theorem readFrameRow_matches_frame (f : Frame) :
    readFrameRow.matches (.frame f) = true ↔ f.extractLsb' 15 1 = 0#1 ∧ f.extractLsb' 0 9 = 0#9 := by
  simp only [readFrameRow, OpRow.matches, PortWord.width, PortWord.bits, readFrame_mask, ← BitVec.toNat_inj]
  simp

/-- A command word matches the row of its op code alone. -/
theorem row_matches_command {k : Nat} {row : OpRow} (hrow : opTable[k]? = some row) (cw : CommandWord) :
    row.matches (.command cw) = true ↔ k = (decodeCommand cw).rowIndex := by
  rw [rowIndex_decodeCommand]
  have hlt := opRowIndex_lt (cw.extractLsb' 48 4)
  obtain ⟨hk, rfl⟩ | ⟨rfl, rfl⟩ | ⟨rfl, rfl⟩ := opTable_row hrow
  · rw [commandRow_matches_command, eq_opRowIndex_iff hk]
  · simp [writeFrameRow_matches_command, hlt.ne']
  · simp only [readFrameRow_matches_command, Bool.false_eq_true, false_iff]
    omega

/-- The only rows that a frame can match are the two frame rows, told apart by bit 15. -/
theorem row_matches_frame {k : Nat} {row : OpRow} (hrow : opTable[k]? = some row) (f : Frame) :
    row.matches (.frame f) = true ↔
      (k = 16 ∧ f.extractLsb' 15 1 = 1#1) ∨ (k = 17 ∧ f.extractLsb' 15 1 = 0#1 ∧ f.extractLsb' 0 9 = 0#9) := by
  obtain ⟨hk, rfl⟩ | ⟨rfl, rfl⟩ | ⟨rfl, rfl⟩ := opTable_row hrow
  · simp only [commandRow_matches_frame, Bool.false_eq_true, false_iff]
    omega
  · simp [writeFrameRow_matches_frame]
  · simp [readFrameRow_matches_frame]

/-- A frame that decodes matches the row of its instruction alone, and a rejected one matches no row. -/
theorem row_matches_decodedFrame {k : Nat} {row : OpRow} (hrow : opTable[k]? = some row) (f : Frame) :
    (∀ i : Instr, decodeFrame f = .ok i → (row.matches (.frame f) = true ↔ k = i.rowIndex))
      ∧ (∀ e : DecodeError, decodeFrame f = .error e → row.matches (.frame f) = false) := by
  rw [← Bool.not_eq_true, row_matches_frame hrow]
  obtain hread | hwrite := BitVec.eq_zero_or_eq_one (f.extractLsb' 15 1)
  · by_cases hzero : f.extractLsb' 0 9 = 0#9
    · rw [decodeFrame_of_read hread hzero]
      simp [hread, hzero, Instr.rowIndex]
    · rw [decodeFrame_of_reservedBits hread hzero]
      simp [hread, hzero]
  · rw [decodeFrame_of_write hwrite]
    simp [hwrite, Instr.rowIndex]

/-! ### Bytes and sums -/

/-- The two bytes of a frame, side by side, are the frame. -/
theorem append_frameBytes (f : Frame) : f.extractLsb' 8 8 ++ f.extractLsb' 0 8 = f := by
  apply BitVec.eq_of_getLsbD_eq
  intro i hi
  simp only [BitVec.getLsbD_append, BitVec.getLsbD_extractLsb']
  interval_cases i <;> simp

/-! ### The obligations -/

/-- Settles O46: by the instruction. A command's op code and ports are read back from their places in the command word;
a frame's kind and fields from their places in the frame. -/
theorem decodeOfEncode : Obligations.DecodeOfEncode := by
  intro i
  cases i with
  | writeFrame a p d => exact decode_encode_writeFrame a p d
  | readFrame a p => exact decode_encode_readFrame a p
  | _ => simp [encode, decode, decodeCommand]

/-- Settles O47: a command word matches the row of its op code, which is its instruction's; a frame matches by its kind
and reserved bits, as it decodes. -/
theorem decodingFollowsTheTable : Obligations.DecodingFollowsTheTable := by
  intro w
  cases w with
  | command cw =>
    refine ⟨fun i hdec k row hrow => ?_, fun e hdec => by cases hdec⟩
    cases hdec
    exact row_matches_command hrow cw
  | frame f =>
    refine ⟨fun i hdec k row hrow => (row_matches_decodedFrame hrow f).1 i hdec, fun e hdec => ⟨?_, ?_⟩⟩
    · intro row hmem
      obtain ⟨k, hrow⟩ := List.mem_iff_getElem?.1 hmem
      exact (row_matches_decodedFrame hrow f).2 e hdec
    · intro cw hcw
      cases hcw

/-- Settles O45: the bytes are the quotient and the remainder by 256, and put side by side they are the frame again. -/
theorem frameBytesAreHighByteFirst : Obligations.FrameBytesAreHighByteFirst := by
  refine ⟨fun f => ⟨?_, ?_⟩, fun bytes hlen => ?_⟩
  · have hlt := f.isLt
    simp only [frameBytes, List.map_cons, List.map_nil, BitVec.extractLsb'_toNat, Nat.shiftRight_eq_div_pow,
      List.cons.injEq, and_true]
    omega
  · rw [frameBytes, decodeFrameBytes, append_frameBytes, decode]
  · match bytes with
    | [] => rfl
    | [_] => rfl
    | [_, _] => exact absurd rfl hlen
    | _ :: _ :: _ :: _ => rfl

/-- Settles O48: side by side, each part is shifted past the widths of the parts below it. -/
theorem commandWordFormula : Obligations.CommandWordFormula := by
  intro op a b c
  simp only [commandWord, operand, BitVec.toNat_append, BitVec.toNat_ofNat]
  rw [← Nat.shiftLeft_add_eq_or_of_lt (by omega), ← Nat.shiftLeft_add_eq_or_of_lt (by omega),
    ← Nat.shiftLeft_add_eq_or_of_lt (by omega)]
  simp only [Nat.shiftLeft_eq]
  omega

/-- Settles O49: each word evaluated through the decoder. -/
theorem writtenOutWordsDecode : Obligations.WrittenOutWordsDecode :=
  ⟨rfl, rfl, rfl, rfl, rfl, rfl, rfl, rfl⟩

end Sys2Proof.Proofs
end

section
/-! PROOF. The invariants of 10_state.md and 43_gesture.md (R24, R27, R149, R178, R179) hold after reset and at every
step. -/

namespace Sys2Proof.Proofs

open Sys2Proof.Machine Sys2Proof.Safety Sys2Proof.Laws

/-! ### The induction step of an invariant -/

/-- A property of the configuration and the block that holds after reset and that every instruction keeps is kept by
every step. -/
theorem step_keeps {P : State → Prop} (hblock : ∀ s t : State, t.cfg = s.cfg → t.blk = s.blk → P s → P t)
    (hreset : ∀ s : State, P s → P (State.resetWith s.cfg))
    (heffect : ∀ (i : Instr) (s : State) (b : Block), P s → BlockEffect i s b → P { s with blk := b })
    {s t : State} (hs : P s) (hstep : step s = .next t) : P t := by
  cases step_effect hstep with
  | idle _ ht => exact ht ▸ hs
  | reset rest _ ht => exact ht ▸ hblock (State.resetWith s.cfg) _ rfl rfl (hreset s hs)
  | moved rest f _ ht => exact ht ▸ hblock s _ rfl rfl hs
  | ran rest cw now b sm o _ heff _ ht =>
    have hstart : P { s with port := rest, now := now } := hblock s _ rfl rfl hs
    exact hblock _ t (by rw [ht]) (by rw [ht]) (heffect _ _ b hstart heff)

/-! ### The invariant under every NUMERICS (R24, R179) -/

theorem inv_of_same_block (s t : State) (hcfg : t.cfg = s.cfg) (hblk : t.blk = s.blk) (hs : Inv s) : Inv t := by
  obtain ⟨hbase, haccept, hprev⟩ := hs
  rw [← hblk] at hbase haccept hprev
  rw [← hcfg] at hbase hprev
  exact ⟨hbase, haccept, hprev⟩

theorem inv_resetWith (cfg : Config) : Inv (State.resetWith cfg) where
  baselinePerPad := List.length_replicate
  activeHasAccepted := nofun
  activePrevIsLastAccept := nofun

/-- After an accepted poll a machine left Active has recorded a sample at NOW, which is also when the poll was
accepted. -/
theorem acceptedPoll_prevTime {cfg : Config} {now : Time} {r : Sample} {b : Block}
    (h : (gestureStep cfg now r (acceptAt now b)).1.gstate = .active) :
    (gestureStep cfg now r (acceptAt now b)).1.prevTime = now := by
  obtain ⟨-, hnow | ⟨-, hsame, hkept⟩⟩ := gestureStep_active h
  · exact hnow
  · rw [hkept, ← hsame]

theorem effect_keeps_inv {i : Instr} {s : State} {b : Block} (hs : Inv s) (heffect : BlockEffect i s b) :
    Inv { s with blk := b } := by
  obtain ⟨hbase, haccept, hprev⟩ := hs
  cases heffect with
  | kept => exact ⟨hbase, haccept, hprev⟩
  | illegal => exact ⟨hbase, haccept, hprev⟩
  | badOperand => exact ⟨hbase, haccept, hprev⟩
  | calibrated a b means _ _ hlen => exact ⟨hlen, haccept, hprev⟩
  | polled =>
    obtain ⟨kbase, -, -, klast, khave⟩ :=
      gestureStep_keeps s.cfg s.now (positionSample s).1 (acceptAt s.now s.blk)
    exact ⟨(congrArg List.length kbase).trans hbase, fun _ => khave,
      fun _ hactive => (acceptedPoll_prevTime hactive).trans klast.symm⟩

/-! ### The invariant of exact arithmetic (R24, R27, R149, R178) -/

theorem exactInv_of_same_block (s t : State) (hcfg : t.cfg = s.cfg) (hblk : t.blk = s.blk) (hs : ExactInv s) :
    ExactInv t := by
  obtain ⟨hexact, hrange, hzero, hidle, hpos⟩ := hs
  rw [← hblk] at hrange hzero hidle hpos
  rw [← hcfg] at hexact hrange
  exact ⟨hexact, hrange, hzero, hidle, hpos⟩

theorem exactInv_resetWith {cfg : Config} (hexact : cfg.numerics = .exact) : ExactInv (State.resetWith cfg) where
  exact := hexact
  baselineRange x hx := by
    rw [List.eq_of_mem_replicate hx]
    exact ⟨le_rfl, by positivity⟩
  uncalibratedZero _ _ hx := List.eq_of_mem_replicate hx
  uncalibratedIdle _ := rfl
  activePositions := nofun

/-- The mean of at least one reading lies in the range of a reading. -/
theorem mean_mem_range {n : Nat} (hn : n ≠ 0) (cfg : Config) (sm : Sampler) (first : Nat) :
    0 ≤ (∑ k ∈ Finset.range n, (sm.upcoming cfg (first + k) : ℚ)) / (n : ℚ)
      ∧ (∑ k ∈ Finset.range n, (sm.upcoming cfg (first + k) : ℚ)) / (n : ℚ) < 2 ^ cfg.readingWidth := by
  have hpos : (0 : ℚ) < n := by exact_mod_cast Nat.pos_of_ne_zero hn
  refine ⟨by positivity, ?_⟩
  rw [div_lt_iff₀ hpos]
  calc ∑ k ∈ Finset.range n, (sm.upcoming cfg (first + k) : ℚ)
      < ∑ _k ∈ Finset.range n, (2 : ℚ) ^ cfg.readingWidth := by
        refine Finset.sum_lt_sum_of_nonempty (Finset.nonempty_range_iff.2 hn) fun k _ => ?_
        exact_mod_cast upcoming_lt cfg sm (first + k)
    _ = 2 ^ cfg.readingWidth * n := by simp [mul_comm]

/-- Before any calibration a position sample is no-touch (R149). -/
theorem positionSample_uncalibrated {s : State} (hexact : s.cfg.numerics = .exact)
    (hzero : ∀ x ∈ s.blk.baseline, x = 0) : (positionSample s).1 = .noTouch := by
  rw [positionSample_exact s hexact, if_pos (weightSum_uncalibrated hzero)]

theorem effect_keeps_exactInv {i : Instr} {s : State} {b : Block} (hs : ExactInv s) (heffect : BlockEffect i s b) :
    ExactInv { s with blk := b } := by
  obtain ⟨hexact, hrange, hzero, hidle, hpos⟩ := hs
  cases heffect with
  | kept => exact ⟨hexact, hrange, hzero, hidle, hpos⟩
  | illegal => exact ⟨hexact, hrange, hzero, hidle, hpos⟩
  | badOperand => exact ⟨hexact, hrange, hzero, hidle, hpos⟩
  | calibrated a b means _ ha _ hmeans =>
    refine ⟨hexact, fun x hx => ?_, nofun, nofun, hpos⟩
    rw [hmeans hexact] at hx
    obtain ⟨p, -, rfl⟩ := List.mem_map.1 hx
    exact mean_mem_range (fun h0 => ha (BitVec.eq_of_toNat_eq h0)) s.cfg s.sampler (p * a.toNat)
  | polled =>
    obtain ⟨kbase, kcal, -⟩ := gestureStep_keeps s.cfg s.now (positionSample s).1 (acceptAt s.now s.blk)
    refine ⟨hexact, fun x hx => hrange x (kbase ▸ hx), fun hcal x hx => ?_, fun hcal => ?_, fun hactive => ?_⟩
    · exact hzero (kcal.symm.trans hcal) x (kbase ▸ hx)
    · have hcal' : s.blk.calibrated = false := kcal.symm.trans hcal
      change (gestureStep _ _ _ _).1.gstate = _
      rw [positionSample_uncalibrated hexact (hzero hcal'),
        gestureStep_noTouch_of_idle (b := acceptAt s.now s.blk) (hidle hcal')]
      exact hidle hcal'
    · exact gestureStep_positions (fun x hx => positionSample_mem hexact hx) hpos hactive

/-! ### The obligations -/

/-- Settles O51: every effect of an instruction keeps the invariant; the one that matters is the accepted poll, which
sets `prevTime` and `lastAccept` to the same NOW. -/
theorem stepKeepsInv : Obligations.StepKeepsInv := fun _ _ hs hstep =>
  step_keeps inv_of_same_block (fun s _ => inv_resetWith s.cfg) (fun _ _ _ => effect_keeps_inv) hs hstep

/-- Settles O52: a calibration stores means of readings, and an accepted poll stores sampled positions, which before
any calibration do not exist. -/
theorem stepKeepsExactInv : Obligations.StepKeepsExactInv := fun _ _ hs hstep =>
  step_keeps exactInv_of_same_block (fun _ hs => exactInv_resetWith hs.exact)
    (fun _ _ _ => effect_keeps_exactInv) hs hstep

/-- Settles O53: after reset the machine is Idle, uncalibrated, with a baseline of 0 for every pad. -/
theorem resetHasTheInvariants : Obligations.ResetHasTheInvariants := fun cfg =>
  ⟨inv_resetWith cfg, exactInv_resetWith⟩

/-- Settles O32: while Active the invariant makes `prevTime` the rate limiter's `lastAccept`, and a poll accepted after
an earlier one is due. -/
theorem activePollDtIsAtLeastTheInterval : Obligations.ActivePollDtIsAtLeastTheInterval := by
  intro s hinv hpos hactive haccepted
  have hprev := hinv.activePrevIsLastAccept hpos hactive
  have hhave := hinv.activeHasAccepted hactive
  refine ⟨by rw [hprev], ?_⟩
  obtain hnone | hdue := (pollAccepted_iff s).1 haccepted
  · rw [hhave] at hnone
    cases hnone
  · rwa [hprev]

end Sys2Proof.Proofs
end

section
/-! PROOF. Which instructions write the block's fields, and what none reads: the last output, NOW outside POLL, and the
gesture registers while Idle (10_state.md R23 to R29; 20_memory.md R57). -/

namespace Sys2Proof.Proofs

open Sys2Proof.Machine Sys2Proof.Safety Sys2Proof.Laws

/-! ### The configuration and the last output (R6, R23) -/

theorem step_keeps_cfg {s t : State} (hstep : step s = .next t) : t.cfg = s.cfg := by
  cases step_effect hstep with
  | idle _ ht => rw [ht]
  | reset rest _ ht => rw [ht, applyReset_cfg]
  | moved rest f _ ht => rw [ht, transfer_cfg]
  | ran rest cw now b sm o _ _ _ ht => rw [ht]

/-- Each meaning writes its own output over the last one, which its definition does not mention. -/
theorem exec_out_unread (i : Instr) (s : State) (o : Output) : exec i { s with out := o } = exec i s := by
  cases i <;> rfl

/-! ### What only the reset input and the named commands write (R24 to R29) -/

/-- A command writes a baseline or the calibration flag only if it is a CAL with a sample. -/
theorem effect_calibration {i : Instr} {s : State} {b : Block} (heffect : BlockEffect i s b) :
    (b.baseline = s.blk.baseline ∧ b.calibrated = s.blk.calibrated) ∨ ∃ a c, i = .cal a c ∧ a ≠ 0#16 := by
  cases heffect with
  | kept => exact .inl ⟨rfl, rfl⟩
  | illegal => exact .inl ⟨rfl, rfl⟩
  | badOperand => exact .inl ⟨rfl, rfl⟩
  | calibrated a c means hi ha => exact .inr ⟨a, c, hi, ha⟩
  | polled =>
    obtain ⟨kbase, kcal, -⟩ := gestureStep_keeps s.cfg s.now (positionSample s).1 (acceptAt s.now s.blk)
    exact .inl ⟨kbase, kcal⟩

/-- A command writes the gesture fields or the rate limiter only if it is an accepted POLL. -/
theorem effect_gesture {i : Instr} {s : State} {b : Block} (heffect : BlockEffect i s b) :
    (∃ baseline calibrated err, b = { s.blk with baseline := baseline, calibrated := calibrated, err := err })
      ∨ (i = .poll ∧ pollAccepted s = true) := by
  cases heffect with
  | kept => exact .inl ⟨_, _, _, rfl⟩
  | illegal => exact .inl ⟨_, _, _, rfl⟩
  | badOperand => exact .inl ⟨_, _, _, rfl⟩
  | calibrated => exact .inl ⟨_, _, _, rfl⟩
  | polled hi haccepted => exact .inr ⟨hi, haccepted⟩

/-! ### NOW and the gesture registers, which POLL alone reads -/

/-- The machine with another NOW and other values in its four gesture registers. -/
def withUnread (s : State) (now : Time) (startPos prevPos : ℚ) (startTime prevTime : Time) : State :=
  { s with
    now := now
    blk := { s.blk with startPos := startPos, prevPos := prevPos, startTime := startTime, prevTime := prevTime } }

section Unread

variable {i : Instr} {s t : State} (now : Time) (startPos prevPos : ℚ) (startTime prevTime : Time)

theorem positionSample_withUnread :
    positionSample (withUnread s now startPos prevPos startTime prevTime) = positionSample s :=
  positionSample_congr rfl rfl rfl

/-- Every instruction but POLL does the same whatever NOW and the gesture registers hold, and leaves them there. -/
theorem exec_withUnread (hi : i ≠ .poll) (hexec : exec i s = .next t) :
    exec i (withUnread s now startPos prevPos startTime prevTime)
      = .next (withUnread t now startPos prevPos startTime prevTime) := by
  cases i with
  | poll => exact absurd rfl hi
  | encr a =>
    cases hread : s.cfg.hasReadPath
    · rw [exec_encr_of_no_readPath hread] at hexec
      cases hexec
      exact exec_encr_of_no_readPath (s := withUnread s now startPos prevPos startTime prevTime) hread a
    · rw [exec_encr_of_hasReadPath hread] at hexec
      cases hexec
      exact exec_encr_of_hasReadPath (s := withUnread s now startPos prevPos startTime prevTime) hread a
  | cal a b =>
    by_cases ha : a = 0#16
    · subst ha
      cases hexec
      rfl
    · rw [exec_cal_of_ne_zero s b ha] at hexec
      cases hexec
      exact exec_cal_of_ne_zero _ b ha
  | spos =>
    rw [exec_spos] at hexec
    cases hexec
    rw [exec_spos, positionSample_withUnread]
    rfl
  | _ =>
    cases hexec
    rfl

/-- Every instruction but POLL leaves NOW, the gesture mode and the gesture registers alone. -/
theorem exec_keeps_gesture (hi : i ≠ .poll) (hexec : exec i s = .next t) :
    t = withUnread t s.now s.blk.startPos s.blk.prevPos s.blk.startTime s.blk.prevTime
      ∧ t.blk.gstate = s.blk.gstate := by
  obtain ⟨b, sm, o, hnext, heffect⟩ := exec_effect i s
  obtain ⟨baseline, calibrated, err, rfl⟩ | ⟨hpoll, -⟩ := effect_gesture heffect
  · rw [hnext] at hexec
    cases hexec
    exact ⟨rfl, rfl⟩
  · exact absurd hpoll hi

end Unread

/-! ### Machines that are the same in use (R27, R28) -/

theorem sameInUse_refl (s : State) : SameInUse s s :=
  ⟨rfl, rfl, rfl, rfl, rfl, rfl, rfl, rfl, rfl, rfl, rfl, fun _ => ⟨rfl, rfl, rfl, rfl⟩⟩

/-- Two machines that are the same in use are equal while Active, and differ in the gesture registers alone while
Idle. -/
theorem sameInUse_cases {s t : State} (h : SameInUse s t) :
    t = s ∨ (s.blk.gstate = .idle ∧ ∃ startPos prevPos startTime prevTime,
      t = withUnread s s.now startPos prevPos startTime prevTime) := by
  obtain ⟨_, ⟨_, _, gstate, _, _, _, _, _, _, _⟩, _, _, _, _⟩ := s
  obtain ⟨_, ⟨_, _, _, startPos, prevPos, startTime, prevTime, _, _, _⟩, _, _, _, _⟩ := t
  obtain ⟨rfl, rfl, rfl, rfl, rfl, rfl, rfl, rfl, rfl, rfl, rfl, hactive⟩ := h
  cases gstate with
  | idle => exact .inr ⟨rfl, startPos, prevPos, startTime, prevTime, rfl⟩
  | active =>
    obtain ⟨rfl, rfl, rfl, rfl⟩ := hactive rfl
    exact .inl rfl

/-- While Idle the gesture registers are not in use. -/
theorem sameInUse_of_idle {s t : State} {startPos prevPos : ℚ} {startTime prevTime : Time}
    (hidle : s.blk.gstate = .idle) (ht : t = withUnread s s.now startPos prevPos startTime prevTime) :
    SameInUse s t := by
  subst ht
  refine ⟨rfl, rfl, rfl, rfl, rfl, rfl, rfl, rfl, rfl, rfl, rfl, fun hactive => ?_⟩
  rw [hidle] at hactive
  cases hactive

section Idle

variable {s : State} (hidle : s.blk.gstate = .idle) (startPos prevPos : ℚ) (startTime prevTime : Time)

include hidle

/-- A poll in Idle does not read the gesture registers: it leaves them, or it writes all four. -/
theorem exec_poll_sameInUse {s' : State} (hexec : exec .poll s = .next s') : ∃ t' : State,
    exec .poll (withUnread s s.now startPos prevPos startTime prevTime) = .next t' ∧ SameInUse s' t' := by
  have hother := positionSample_withUnread (s := s) s.now startPos prevPos startTime prevTime
  cases haccepted : pollAccepted s with
  | false =>
    rw [execPoll_early haccepted] at hexec
    cases hexec
    exact ⟨_, execPoll_early haccepted, sameInUse_of_idle hidle rfl⟩
  | true =>
    have hdue := (pollAccepted_iff s).1 haccepted
    obtain ⟨hnone, hposition⟩ := idlePollStartsAGesture s hdue hidle
    obtain ⟨hnone', hposition'⟩ := idlePollStartsAGesture (withUnread s s.now startPos prevPos startTime prevTime)
      hdue hidle
    rw [hother] at hnone' hposition'
    cases hsample : (positionSample s).1 with
    | noTouch =>
      rw [hnone hsample] at hexec
      cases hexec
      exact ⟨_, hnone' hsample, sameInUse_of_idle hidle rfl⟩
    | position x =>
      rw [hposition x hsample] at hexec
      cases hexec
      exact ⟨_, hposition' x hsample, sameInUse_refl _⟩

/-- Any instruction in Idle, on two machines that differ in the gesture registers. -/
theorem exec_sameInUse {i : Instr} {s' : State} (hexec : exec i s = .next s') : ∃ t' : State,
    exec i (withUnread s s.now startPos prevPos startTime prevTime) = .next t' ∧ SameInUse s' t' := by
  by_cases hi : i = .poll
  · subst hi
    exact exec_poll_sameInUse hidle startPos prevPos startTime prevTime hexec
  · obtain ⟨hkept, hmode⟩ := exec_keeps_gesture hi hexec
    have hnow : s'.now = s.now := by
      rw [hkept]
      rfl
    refine ⟨_, exec_withUnread s.now startPos prevPos startTime prevTime hi hexec, ?_⟩
    exact sameInUse_of_idle (hmode.trans hidle) (by rw [hnow])

end Idle

/-! ### The obligations -/

/-- Settles O54: a step writes the configuration in none of its cases, and no meaning mentions the last output. -/
theorem configurationIsStaticAndOutputUnread : Obligations.ConfigurationIsStaticAndOutputUnread :=
  ⟨fun _ _ => step_keeps_cfg, exec_out_unread⟩

/-- Settles O55: the instruction run with another NOW, the gesture registers being what they were. -/
theorem onlyPollReadsNow : Obligations.OnlyPollReadsNow := by
  intro i s t now hi hexec
  obtain ⟨hkept, -⟩ := exec_keeps_gesture hi hexec
  have hother := exec_withUnread now s.blk.startPos s.blk.prevPos s.blk.startTime s.blk.prevTime hi hexec
  rw [hkept]
  exact hother

/-- Settles O39: by what the step did; a command that writes one of the fields is the one named. -/
theorem onlyTheNamedCommandsWriteTheBlock : Obligations.OnlyTheNamedCommandsWriteTheBlock := by
  intro s t hstep
  cases step_effect hstep with
  | idle _ ht =>
    subst ht
    simp
  | reset rest hport _ =>
    rw [hport]
    exact ⟨fun _ => .inl rfl, fun _ => .inl rfl⟩
  | moved rest f _ ht =>
    subst ht
    simp
  | ran rest cw now b sm o hport heffect _ ht =>
    have hhead : s.port.head? = some (.command now cw) := by rw [hport, List.head?_cons]
    subst ht
    constructor
    · intro hchanged
      obtain ⟨hbase, hcal⟩ | ⟨a, c, hi, ha⟩ := effect_calibration heffect
      · simp [hbase, hcal] at hchanged
      · exact .inr ⟨now, cw, a, c, hhead, hi, ha⟩
    · intro hchanged
      obtain ⟨baseline, calibrated, err, rfl⟩ | ⟨hpoll, haccepted⟩ := effect_gesture heffect
      · simp at hchanged
      · exact .inr ⟨now, cw, hhead, hpoll, (pollAccepted_iff _).1 haccepted⟩

/-- Settles O56: the two machines are equal or Idle. In Idle every instruction but POLL leaves the gesture registers
unread and in place, and POLL writes them before it reads them. -/
theorem idleGestureRegistersAreUnread : Obligations.IdleGestureRegistersAreUnread := by
  intro s t s' hsame hstep
  obtain rfl | ⟨hidle, startPos, prevPos, startTime, prevTime, rfl⟩ := sameInUse_cases hsame
  · exact ⟨s', hstep, sameInUse_refl s'⟩
  cases step_effect hstep with
  | idle hport ht => exact ⟨_, step_of_no_event hport, ht ▸ hsame⟩
  | reset rest hport ht => exact ⟨_, step_of_reset hport, ht ▸ sameInUse_refl _⟩
  | moved rest f hport ht =>
    refine ⟨_, step_of_frame hport, ht ▸ ?_⟩
    exact sameInUse_of_idle hidle rfl
  | ran rest cw now b sm o hport _ hexec _ =>
    obtain ⟨t', hexec', hsame'⟩ := exec_sameInUse (s := { s with port := rest, now := now }) hidle
      startPos prevPos startTime prevTime hexec
    have hcommand := step_of_command (s := withUnread s s.now startPos prevPos startTime prevTime) hport
    exact ⟨t', hcommand.trans hexec', hsame'⟩

end Sys2Proof.Proofs
end

section
/-! PROOF. What SPOS answers: the properties of a position sample (42_slider.md R147 and R149), and that CAL and SPOS
complete under every NUMERICS. -/

namespace Sys2Proof.Proofs

open Sys2Proof.Machine Sys2Proof.Safety Sys2Proof.Laws

/-! ### Every NUMERICS -/

/-- The response of a sample names a position only with `posValid`. -/
theorem sampleResponse_shape (r : Sample) :
    sampleResponse r = { posValid := (sampleResponse r).posValid, pos := (sampleResponse r).pos }
      ∧ ((sampleResponse r).posValid = 0#1 → (sampleResponse r).pos = 0) := by
  cases r with
  | noTouch => exact ⟨rfl, fun _ => rfl⟩
  | position x => exact ⟨rfl, fun (h : 1#1 = 0#1) => absurd h (by decide)⟩

theorem newBaselines_length (s : State) (n : Nat) (dly : Operand) :
    (newBaselines s.cfg n dly s.cfg.padCount 0 (Collab.start s)).1.length = s.cfg.padCount :=
  (newBaselines_eq s.cfg n dly s.cfg.padCount 0 (Collab.start s)).1

/-! ### Exact arithmetic: the two answers of SPOS -/

/-- The sum of the weights of a sample, `W` in R145. -/
def weightSum (s : State) : ℚ := ∑ i ∈ Finset.range s.cfg.padCount, padWeight s i

/-- The sum of the weighted nominal positions of a sample, `M` in R145. -/
def momentSum (s : State) : ℚ := ∑ i ∈ Finset.range s.cfg.padCount, padNominal s i * padWeight s i

section Exact

variable {s : State} (hexact : s.cfg.numerics = .exact)

include hexact

theorem positionSample_eq_centroid : (positionSample s).1 =
    if weightSum s = 0 then .noTouch else .position (momentSum s / weightSum s) :=
  positionSample_exact s hexact

/-- No-touch when the weights sum to 0. -/
theorem exec_spos_noTouch (hsum : weightSum s = 0) : ∃ t : State,
    exec .spos s = .next t ∧ t.out.response = some {} := by
  refine ⟨_, exec_spos s, ?_⟩
  rw [positionSample_eq_centroid hexact, if_pos hsum]
  rfl

/-- The centroid when they do not. -/
theorem exec_spos_position (hsum : weightSum s ≠ 0) : ∃ t : State,
    exec .spos s = .next t ∧ t.out.response = some { posValid := 1#1, pos := momentSum s / weightSum s } := by
  refine ⟨_, exec_spos s, ?_⟩
  rw [positionSample_eq_centroid hexact, if_neg hsum]
  rfl

end Exact

theorem weightSum_eq_zero_iff (s : State) :
    weightSum s = 0 ↔ ∀ i < s.cfg.padCount, padThreshold s i ≤ padReading s i :=
  weightSum_eq_zero s

/-! ### Weights that are 0 on most pads, or equal, or proportional -/

theorem padWeight_pos {s : State} {i : Nat} (h : padReading s i < padThreshold s i) : 0 < padWeight s i := by
  rw [padWeight, if_pos h]
  linarith

/-- With one crossing pad the sums have one term. -/
theorem sums_of_one_pad {s : State} {i : Nat} (hi : i < s.cfg.padCount)
    (hother : ∀ j < s.cfg.padCount, j ≠ i → padWeight s j = 0) :
    weightSum s = padWeight s i ∧ momentSum s = padNominal s i * padWeight s i := by
  have hzero : ∀ j ∈ Finset.range s.cfg.padCount, j ≠ i → padWeight s j = 0 :=
    fun j hj => hother j (Finset.mem_range.1 hj)
  have hmem := Finset.mem_range.2 hi
  exact ⟨Finset.sum_eq_single_of_mem i hmem hzero,
    Finset.sum_eq_single_of_mem i hmem fun j hj hne => by rw [hzero j hj hne, mul_zero]⟩

/-- With two crossing pads the sums have two terms. -/
theorem sums_of_two_pads {s : State} {i j : Nat} (hi : i < s.cfg.padCount) (hj : j < s.cfg.padCount) (hij : i ≠ j)
    (hother : ∀ k < s.cfg.padCount, k ≠ i → k ≠ j → padWeight s k = 0) :
    weightSum s = padWeight s i + padWeight s j
      ∧ momentSum s = padNominal s i * padWeight s i + padNominal s j * padWeight s j := by
  have hzero : ∀ k ∈ Finset.range s.cfg.padCount, k ≠ i ∧ k ≠ j → padWeight s k = 0 :=
    fun k hk hne => hother k (Finset.mem_range.1 hk) hne.1 hne.2
  have hmi := Finset.mem_range.2 hi
  have hmj := Finset.mem_range.2 hj
  exact ⟨Finset.sum_eq_add_of_mem i j hmi hmj hij hzero,
    Finset.sum_eq_add_of_mem i j hmi hmj hij fun k hk hne => by rw [hzero k hk hne, mul_zero]⟩

/-- With equal weights the sums are the number of pads and half of it. -/
theorem sums_of_equal_weights {s : State} {w : ℚ} (hw : ∀ i < s.cfg.padCount, padWeight s i = w) :
    weightSum s = s.cfg.padCount * w ∧ momentSum s = s.cfg.padCount / 2 * w := by
  have hall : ∀ i ∈ Finset.range s.cfg.padCount, padWeight s i = w := fun i hi => hw i (Finset.mem_range.1 hi)
  constructor
  · rw [weightSum, Finset.sum_congr rfl hall, Finset.sum_const, Finset.card_range, nsmul_eq_mul]
  · rw [momentSum, Finset.sum_congr rfl fun i hi => by rw [hall i hi], ← Finset.sum_mul, padNominal_sum]

/-- Proportional weights have proportional sums. -/
theorem sums_of_proportional_weights {s u : State} {c : ℚ} (hcfg : s.cfg = u.cfg)
    (hw : ∀ i < s.cfg.padCount, padWeight u i = c * padWeight s i) :
    weightSum u = c * weightSum s ∧ momentSum u = c * momentSum s := by
  have hall : ∀ i ∈ Finset.range s.cfg.padCount, padWeight u i = c * padWeight s i :=
    fun i hi => hw i (Finset.mem_range.1 hi)
  have hnominal (i : Nat) : padNominal u i = padNominal s i := by rw [padNominal, padNominal, hcfg]
  constructor
  · rw [weightSum, weightSum, ← hcfg, Finset.mul_sum]
    exact Finset.sum_congr rfl hall
  · rw [momentSum, momentSum, ← hcfg, Finset.mul_sum]
    refine Finset.sum_congr rfl fun i hi => ?_
    rw [hnominal, hall i hi, mul_left_comm]

/-- With `DROP_FRACTION = 1` every threshold is 0, which no reading is below. -/
theorem weightSum_fullDrop {s : State} (hdrop : s.cfg.dropFraction = 1) : weightSum s = 0 := by
  rw [weightSum_eq_zero_iff]
  intro i _
  rw [padThreshold, hdrop, sub_self, mul_zero, padReading]
  positivity

/-! ### The obligations -/

/-- Settles O16: only the values of the means and of the position depend on NUMERICS. -/
theorem sliderCompletesUnderEveryNumerics : Obligations.SliderCompletesUnderEveryNumerics := by
  constructor
  · intro a b s ha
    exact ⟨_, newBaselines_length s a.toNat b, exec_cal_of_ne_zero s b ha⟩
  · intro s
    exact ⟨_, exec_spos s, sampleResponse_shape _⟩

/-- Settles O17: no-touch answers 0, and a centroid is a weighted mean of nominal positions (`centroid_mem`). -/
theorem positionsLieInTheUnitInterval : Obligations.PositionsLieInTheUnitInterval := by
  intro s hexact
  by_cases hsum : weightSum s = 0
  · obtain ⟨t, hexec, hout⟩ := exec_spos_noTouch hexact hsum
    exact ⟨t, _, hexec, hout, le_rfl, zero_le_one⟩
  · obtain ⟨t, hexec, hout⟩ := exec_spos_position hexact hsum
    exact ⟨t, _, hexec, hout, centroid_mem s hsum⟩

/-- Settles O18: weights are never negative, so their sum is 0 exactly when no pad crosses. -/
theorem noTouchExactlyWhenNoPadCrosses : Obligations.NoTouchExactlyWhenNoPadCrosses := by
  intro s hexact
  rw [← weightSum_eq_zero_iff]
  by_cases hsum : weightSum s = 0
  · obtain ⟨t, hexec, hout⟩ := exec_spos_noTouch hexact hsum
    exact ⟨t, _, hexec, hout, by simp [hsum]⟩
  · obtain ⟨t, hexec, hout⟩ := exec_spos_position hexact hsum
    exact ⟨t, _, hexec, hout, by simp [hsum]⟩

/-- Settles O19: the one weight cancels. -/
theorem oneCrossingPadGivesItsPosition : Obligations.OneCrossingPadGivesItsPosition := by
  intro s i hexact hi hcross hother
  have hpos := padWeight_pos hcross
  obtain ⟨hsum, hmoment⟩ := sums_of_one_pad hi fun j hj hne => (padWeight_eq_zero s j).2 (hother j hj hne)
  obtain ⟨t, hexec, hout⟩ := exec_spos_position hexact (hsum ▸ hpos.ne')
  refine ⟨t, hexec, ?_⟩
  rw [hout, hsum, hmoment, mul_div_cancel_right₀ _ hpos.ne', padNominal]

/-- Settles O20: the common weight cancels, from a sum of two terms and from a sum over all pads. -/
theorem equalWeightsGiveTheMiddle : Obligations.EqualWeightsGiveTheMiddle := by
  constructor
  · intro s i j hexact hi hj hij hpos hequal hother
    obtain ⟨hsum, hmoment⟩ := sums_of_two_pads hi hj hij hother
    rw [← hequal] at hsum hmoment
    have hne : weightSum s ≠ 0 := by
      rw [hsum]
      positivity
    obtain ⟨t, hexec, hout⟩ := exec_spos_position hexact hne
    have hmiddle : momentSum s / weightSum s = (padNominal s i + padNominal s j) / 2 := by
      rw [hsum, hmoment]
      field_simp
      ring
    exact ⟨t, hexec, by rw [hout, hmiddle]⟩
  · intro s w hexact hpos hw
    obtain ⟨hsum, hmoment⟩ := sums_of_equal_weights hw
    have hpads : (0 : ℚ) < s.cfg.padCount := by exact_mod_cast (two_le_padCount s.cfg).trans_lt' (by decide)
    have hne : weightSum s ≠ 0 := by
      rw [hsum]
      positivity
    obtain ⟨t, hexec, hout⟩ := exec_spos_position hexact hne
    have hmiddle : momentSum s / weightSum s = 1 / 2 := by
      rw [hsum, hmoment]
      field_simp
    exact ⟨t, hexec, by rw [hout, hmiddle]⟩

/-- Settles O21: the common factor cancels in the centroid, and does not change whether the weights sum to 0. -/
theorem positionDependsOnWeightRatios : Obligations.PositionDependsOnWeightRatios := by
  intro s u c hexact hcfg hc hw
  obtain ⟨hsum, hmoment⟩ := sums_of_proportional_weights hcfg hw
  have hexact' : u.cfg.numerics = .exact := hcfg ▸ hexact
  by_cases hzero : weightSum s = 0
  · obtain ⟨t, hexec, hout⟩ := exec_spos_noTouch hexact hzero
    obtain ⟨v, hexec', hout'⟩ := exec_spos_noTouch hexact' (by rw [hsum, hzero, mul_zero])
    exact ⟨t, v, hexec, hexec', hout.trans hout'.symm⟩
  · obtain ⟨t, hexec, hout⟩ := exec_spos_position hexact hzero
    obtain ⟨v, hexec', hout'⟩ := exec_spos_position hexact' (hsum ▸ mul_ne_zero hc.ne' hzero)
    refine ⟨t, v, hexec, hexec', ?_⟩
    rw [hout, hout', hsum, hmoment, mul_div_mul_left _ _ hc.ne']

/-- Settles O22: either way every threshold is 0, so the weights sum to 0. -/
theorem noTouchUncalibratedOrFullDrop : Obligations.NoTouchUncalibratedOrFullDrop := by
  intro s hexact hcase
  refine exec_spos_noTouch hexact ?_
  obtain hzero | hdrop := hcase
  · exact weightSum_uncalibrated hzero
  · exact weightSum_fullDrop hdrop

end Sys2Proof.Proofs
end

section
/-! PROOF. The events a poll reports, and when polls are accepted (43_gesture.md R171, R176, R177, R180; 30_encoding.md
R75 and R85). -/

namespace Sys2Proof.Proofs

open Sys2Proof.Machine Sys2Proof.Safety Sys2Proof.Laws

/-! ### The response of a poll -/

/-- A poll answers all zero, or the event of the gesture machine. -/
theorem exec_poll_response (s : State) : ∃ (t : State) (r : Response),
    exec .poll s = .next t ∧ t.out.response = some r
      ∧ ((pollAccepted s = false ∧ r = {})
        ∨ (pollAccepted s = true
          ∧ r = eventResponse (gestureStep s.cfg s.now (positionSample s).1 (acceptAt s.now s.blk)).2)) := by
  cases haccepted : pollAccepted s with
  | false => exact ⟨_, _, execPoll_early haccepted, rfl, .inl ⟨rfl, rfl⟩⟩
  | true => exact ⟨_, _, exec_poll_of_gestureStep ((pollAccepted_iff s).1 haccepted) rfl, rfl, .inr ⟨rfl, rfl⟩⟩

theorem eventResponse_shape (e : GestureEvent) : eventResponse e =
    { accepted := (eventResponse e).accepted, kind := (eventResponse e).kind, dir := (eventResponse e).dir
      mag := (eventResponse e).mag } := by
  cases e <;> rfl

theorem eventLegal_of_absent {r : Response} (hkind : r.kind = 0b00#2) (hdir : r.dir = 0#1) (hmag : r.mag = 0) :
    EventLegal r where
  kind := by
    rw [hkind]
    decide
  absent _ := ⟨hdir, hmag⟩
  present hpresent := absurd hkind hpresent

theorem eventLegal_of_present {r : Response} (hkind : r.kind = 0b01#2 ∨ r.kind = 0b10#2) (hpos : 0 < r.mag)
    (hone : r.mag ≤ 1) : EventLegal r := by
  have hkinds : r.kind ≠ 0b11#2 ∧ r.kind ≠ 0b00#2 := by
    obtain hkind | hkind := hkind <;> rw [hkind] <;> decide
  exact ⟨hkinds.1, fun habsent => absurd habsent hkinds.2, fun _ => ⟨hpos, hone⟩⟩

/-- What the gesture machine reports is legal: an event is the motion function's, of positive magnitude, clamped at
1. -/
theorem gestureStep_eventLegal (cfg : Config) (now : Time) (r : Sample) (b : Block) :
    EventLegal (eventResponse (gestureStep cfg now r b).2) := by
  obtain hnone | ⟨dx, dt, hpos, hmotion | hended⟩ := gestureStep_event cfg now r b
  · rw [hnone]
    exact eventLegal_of_absent rfl rfl rfl
  · rw [hmotion]
    exact eventLegal_of_present (.inl rfl) hpos (motion_le_one cfg dx dt)
  · rw [hended]
    exact eventLegal_of_present (.inr rfl) hpos (motion_le_one cfg dx dt)

/-- A deadzone above 1 swallows every magnitude. -/
theorem gestureStep_silent {cfg : Config} (hdead : 1 < cfg.deadzone) (now : Time) (r : Sample) (b : Block) :
    (gestureStep cfg now r b).2 = .none := by
  obtain hnone | ⟨dx, dt, hpos, -⟩ := gestureStep_event cfg now r b
  · exact hnone
  · rw [motion_silent hdead] at hpos
    exact absurd hpos (lt_irrefl 0)

/-! ### The sign of the motion (R176, R177) -/

section Sign

variable {cfg : Config} (hexact : cfg.numerics = .exact) {dx : ℚ} {dt : Nat}

include hexact

theorem motion_forward (hdx : 0 ≤ dx) : (motion cfg dx dt).1 = .forward := by
  rw [motion_exact hexact]
  exact if_pos (by positivity)

theorem motion_backward (hdx : dx < 0) (hdt : 0 < dt) : (motion cfg dx dt).1 = .backward := by
  have hdt' : (0 : ℚ) < dt := by exact_mod_cast hdt
  rw [motion_exact hexact]
  exact if_neg (not_le.2 (div_neg_of_neg_of_pos (by linarith) hdt'))

theorem motion_still : (motion cfg 0 dt).2 = 0 := by
  simp [motion_exact hexact]

end Sign

/-! ### Real time (R180) -/

/-- The modular difference of two counts of less than 2^32 ms apart is their difference. -/
theorem elapsed_of_real_time {before now : Nat} (hle : before ≤ now) (hlt : now - before < 2 ^ 32) :
    (BitVec.ofNat 32 now - BitVec.ofNat 32 before).toNat = now - before := by
  rw [BitVec.toNat_sub, BitVec.toNat_ofNat, BitVec.toNat_ofNat]
  omega

/-! ### The obligations -/

/-- Settles O28: the event is the motion of `x - prevPos` over a `dt_ms` that is not 0; with no displacement its
magnitude is 0, so none is reported. -/
theorem motionDirectionIsTheSign : Obligations.MotionDirectionIsTheSign := by
  intro s x hexact hdue hactive hsample
  have hstep := gestureStep_position_of_active (cfg := s.cfg) (now := s.now) (b := acceptAt s.now s.blk) hactive x
  rw [← hsample] at hstep
  by_cases hdt : s.now = s.blk.prevTime
  · rw [pollTouched_of_dt_zero (b := acceptAt s.now s.blk) hdt] at hstep
    exact ⟨_, _, exec_poll_of_gestureStep hdue hstep, rfl, fun hkind => absurd rfl hkind,
      fun hkind => absurd rfl hkind, fun _ => rfl⟩
  · rw [pollTouched_of_dt_ne_zero (b := acceptAt s.now s.blk) hexact hdt] at hstep
    refine ⟨_, _, exec_poll_of_gestureStep hdue hstep, rfl, ?_⟩
    have hpos : 0 < (s.now - s.blk.prevTime).toNat := by
      have hne := mt (elapsed_eq_zero_iff _ _).1 hdt
      bv_omega
    dsimp only
    split
    · rename_i hmag
      refine ⟨fun _ hforward => ?_, fun _ hbackward => ?_, fun hstill => ?_⟩
      · exact congrArg Direction.code (motion_forward hexact (sub_nonneg.2 hforward.le))
      · exact congrArg Direction.code (motion_backward hexact (sub_neg.2 hbackward) hpos)
      · rw [hstill, acceptAt_prevPos, sub_self, motion_still hexact] at hmag
        exact absurd hmag (lt_irrefl 0)
    · exact ⟨fun hkind => absurd rfl hkind, fun hkind => absurd rfl hkind, fun _ => rfl⟩

/-- Settles O29: a rejected poll answers all zero, and an accepted one a legal event. -/
theorem pollEventsAreLegal : Obligations.PollEventsAreLegal := by
  intro s
  obtain ⟨t, r, hexec, hout, ⟨-, rfl⟩ | ⟨-, rfl⟩⟩ := exec_poll_response s
  · exact ⟨t, _, hexec, hout, eventLegal_of_absent rfl rfl rfl, rfl⟩
  · exact ⟨t, _, hexec, hout, gestureStep_eventLegal _ _ _ _, eventResponse_shape _⟩

/-- Settles O30: a rejected poll answers all zero, and an accepted one no event. -/
theorem deadzoneAboveOneSilencesEvents : Obligations.DeadzoneAboveOneSilencesEvents := by
  intro s hdead
  obtain ⟨t, r, hexec, hout, ⟨-, rfl⟩ | ⟨-, rfl⟩⟩ := exec_poll_response s
  · exact ⟨t, _, hexec, hout, rfl, rfl⟩
  · rw [gestureStep_silent hdead] at hout
    exact ⟨t, _, hexec, hout, rfl, rfl⟩

/-- Settles O31: the first poll leaves its NOW in the rate limiter, which rejects the second. -/
theorem secondPollWithinTheIntervalIsANoOp : Obligations.SecondPollWithinTheIntervalIsANoOp := by
  intro s later hdue hlater
  obtain ⟨-, b, sampler, requests, r, hexec, hwhenDue, -⟩ := pollIsAcceptedWhenDue 0 0 0 s
  obtain ⟨-, hlast, hhave, -, -⟩ := hwhenDue hdue
  refine ⟨_, hexec, earlyPollIsANoOp _ hhave ?_⟩
  change (later - b.lastAccept).toNat < s.cfg.sampleIntervalMs
  rwa [hlast]

/-- Settles O33: after an accepted poll acceptance is a comparison of the elapsed count with `Tint`, and that count is
the real one. -/
theorem acceptanceFollowsRealTime : Obligations.AcceptanceFollowsRealTime := by
  intro s before now hhave hlast hnow hle hlt
  have haccepted : pollAccepted s = true ↔ s.cfg.sampleIntervalMs ≤ now - before := by
    rw [pollAccepted_iff, hhave, hlast, hnow, elapsed_of_real_time hle hlt]
    simp
  obtain ⟨t, r, hexec, hout, ⟨hearly, rfl⟩ | ⟨hdue, rfl⟩⟩ := exec_poll_response s
  · refine ⟨t, _, hexec, hout, ?_⟩
    rw [← haccepted, hearly]
    decide
  · refine ⟨t, _, hexec, hout, ?_⟩
    rw [← haccepted, hdue, eventResponse_accepted]
    simp

end Sys2Proof.Proofs
end

section
/-! PROOF. The encoders' frames read back by DECF and by the decoder, and the parity check (40_frame_codec.md R101 to
R103; 30_encoding.md R78 and R79). -/

namespace Sys2Proof.Proofs

open Sys2Proof.Machine Sys2Proof.Laws

/-! ### Parity (R78) -/

theorem parityOk_of_odd {f : Frame} (hodd : popcount f % 2 = 1) : parityOk f = 1#1 := by
  rw [parityOk, hodd]

/-- Flipping one bit makes an odd popcount even. -/
theorem popcount_flip {f : Frame} {k : Nat} (hodd : popcount f % 2 = 1) (hk : k < 16) :
    popcount (f ^^^ (1#16 <<< k)) % 2 = 0 := by
  rw [popcount_xor_parity, popcount_oneBit hk]
  omega

theorem decodedFrame_parityOk (f : Frame) : (decodedFrame f).parityOk = parityOk f := by
  rw [decodedFrame]
  split <;> rfl

/-! ### DECF of an encoder's frame (R103) -/

theorem decodedFrame_writeFrameOf (a b : Operand) : decodedFrame (writeFrameOf a b) =
    { dDir := 1#1, dAddr := (a.extractLsb' 0 4).setWidth 5, dData := b.extractLsb' 0 10
      parityOk := 1#1, rsvOk := 1#1 } := by
  rw [decodedFrame_of_write (writeFrameOf_direction a b), writeFrameOf_address, writeFrameOf_payload,
    parityOk_of_odd (writeFrameOf_odd a b)]

theorem decodedFrame_readFrameOf (a : Operand) : decodedFrame (readFrameOf a) =
    { dDir := 0#1, dAddr := a.extractLsb' 0 5, dData := 0#10, parityOk := 1#1, rsvOk := 1#1 } := by
  rw [decodedFrame_of_read (readFrameOf_direction a), readFrameOf_address, readFrameOf_reserved,
    parityOk_of_odd (readFrameOf_odd a)]
  rfl

/-! ### Decoding of an encoder's frame (R79) -/

/-- A frame that decodes is the encoding of its instruction. -/
theorem encode_of_decodeFrame {f : Frame} {i : Instr} (h : decodeFrame f = .ok i) : encode i = .frame f := by
  obtain hread | hwrite := BitVec.eq_zero_or_eq_one (f.extractLsb' 15 1)
  · by_cases hzero : f.extractLsb' 0 9 = 0#9
    · rw [decodeFrame_of_read hread hzero] at h
      cases h
      rw [encode, ← hread, ← hzero, append_readFields]
    · rw [decodeFrame_of_reservedBits hread hzero] at h
      cases h
  · rw [decodeFrame_of_write hwrite] at h
    cases h
    rw [encode, ← hwrite, append_writeFields]

/-- A frame's row is well formed when the popcount of the whole frame is odd. -/
theorem wellFormed_of_decodeFrame {f : Frame} {i : Instr} (h : decodeFrame f = .ok i) (hodd : popcount f % 2 = 1) :
    i.wellFormed = true := by
  have hparity : (encode i).oddParity = true := by
    rw [encode_of_decodeFrame h, PortWord.oddParity, hodd]
    rfl
  obtain ⟨a, p, d, rfl⟩ | ⟨a, p, rfl⟩ := decodeFrame_ok h
  · exact hparity
  · exact hparity

/-! ### The obligations -/

/-- Settles O4: the fields and the parity of `writeFrameOf` and `readFrameOf`, as DECF reports them. -/
theorem decfInvertsTheEncoders : Obligations.DecfInvertsTheEncoders := by
  constructor
  · intro a b s
    refine ⟨writeFrameOf a b, rfl, fun u => ?_⟩
    rw [← decodedFrame_writeFrameOf]
    rfl
  · intro a s hread
    refine ⟨readFrameOf a, exec_encr_of_hasReadPath hread a, fun u => ?_⟩
    rw [← decodedFrame_readFrameOf]
    rfl

/-- Settles O5: the flipped frame has even popcount, and `parity_ok` is the popcount modulo 2. -/
theorem decfDetectsOneFlippedBit : Obligations.DecfDetectsOneFlippedBit := by
  intro f k s hodd hk
  refine ⟨decodedFrame (f ^^^ (1#16 <<< k)), rfl, ?_⟩
  rw [decodedFrame_parityOk, parityOk, popcount_flip hodd hk]

/-- Settles O6: bit 15 of an encoder's frame tells its row, and its popcount is odd. -/
theorem encodersMakeWellFormedFrames : Obligations.EncodersMakeWellFormedFrames := by
  constructor
  · intro a b s
    have hdec := decodeFrame_of_write (writeFrameOf_direction a b)
    exact ⟨writeFrameOf a b, _, rfl, hdec, wellFormed_of_decodeFrame hdec (writeFrameOf_odd a b), rfl⟩
  · intro a s hread
    have hdec := decodeFrame_of_read (readFrameOf_direction a) (readFrameOf_reserved a)
    exact ⟨readFrameOf a, _, exec_encr_of_hasReadPath hread a, hdec,
      wellFormed_of_decodeFrame hdec (readFrameOf_odd a), rfl⟩

end Sys2Proof.Proofs
end

section
/-! PROOF. The packers' payloads read back through the device's register layouts (20_memory.md R51, 41_payload_packer.md
R125). -/

namespace Sys2Proof.Proofs

open Sys2Proof.Machine Sys2Proof.Laws

/-- A layout's field of a payload holds the low bits of an operand. -/
theorem value_toNat {name : String} {lo width : Nat} {p : Payload} {v : Operand}
    (h : p.extractLsb' lo width = v.extractLsb' 0 width) :
    (PayloadField.value ⟨name, lo, width⟩ p).toNat = v.toNat % 2 ^ width := by
  rw [PayloadField.value, h, extract_low_toNat]

/-- Where FSO_SHIFT moves `fsoMode` off the enable bits, the three fields of R82 do not overlap. -/
theorem exec_pkct_fields (a b c : Operand) {s : State} (hshift : 2 ≤ s.cfg.fsoShift) : ∃ p : Payload,
    exec (.pkct a b c) s = .next { s with out := { response := some { payload := p } } }
      ∧ p.extractLsb' s.cfg.fsoShift 3 = a.extractLsb' 0 3
      ∧ p.extractLsb' 1 1 = b.extractLsb' 0 1 ∧ p.extractLsb' 0 1 = c.extractLsb' 0 1 := by
  have hfit : s.cfg.fsoShift + 3 ≤ 10 := by
    have := fsoShift_le_seven s.cfg
    omega
  refine ⟨placeField 3 s.cfg.fsoShift a ||| placeField 1 1 b ||| placeField 1 0 c, rfl, ?_, ?_, ?_⟩
  · rw [BitVec.extractLsb'_or, extract_or_placeField_upper a b hfit (by omega),
      extract_placeField_apart c (by omega), BitVec.or_zero]
  · rw [BitVec.extractLsb'_or, extract_or_placeField_lower a b (by decide) (by omega),
      extract_placeField_apart c (by decide), BitVec.or_zero]
  · rw [BitVec.extractLsb'_or, BitVec.extractLsb'_or, extract_placeField_apart a (by omega),
      extract_placeField_apart b (by decide), extract_placeField_same c (by decide), BitVec.or_zero, BitVec.zero_or]

/-- Settles O11: by the packer, whose fields are where the layout of its register has them. -/
theorem packedFieldsReadBackFromTheLayouts : Obligations.PackedFieldsReadBackFromTheLayouts := by
  intro i reg s hreg hshift
  cases i with
  | pkbc a b =>
    obtain ⟨-, p, hexec, hrange, hcode⟩ := pkbcPacksBuckCurrent a b 0 s
    refine ⟨p, hexec, ?_, nofun, nofun, nofun⟩
    rintro a b ⟨⟩
    have hlayout : reg.layout s.cfg = [⟨"isensRange", 8, 2⟩, ⟨"currentThresholdCode", 0, 8⟩] := by
      obtain rfl | rfl : reg = .buck1Current ∨ reg = .buck2Current := by simpa [packedFor] using hreg
      · rfl
      · rfl
    simp [hlayout, value_toNat hrange, value_toNat hcode]
  | pkot a b =>
    obtain ⟨-, p, hexec, hfirst, hsecond⟩ := pkotPacksOffTime a b 0 s
    obtain rfl : reg = .offTime := List.mem_singleton.1 hreg
    refine ⟨p, hexec, nofun, ?_, nofun, nofun⟩
    rintro a b ⟨⟩
    simp [DeviceRegister.layout, value_toNat hfirst, value_toNat hsecond]
  | pkct a b c =>
    obtain rfl : reg = .buckControl := List.mem_singleton.1 hreg
    obtain ⟨p, hexec, hmode, hfirst, hsecond⟩ := exec_pkct_fields a b c (hshift rfl)
    refine ⟨p, hexec, nofun, nofun, ?_, nofun⟩
    rintro a b c ⟨⟩
    simp [DeviceRegister.layout, value_toNat hmode, value_toNat hfirst, value_toNat hsecond]
  | pktr a b c =>
    obtain ⟨-, p, hexec, hfirst, hsecond, hwarning⟩ := pktrPacksThermalRecovery a b c s
    obtain rfl : reg = .thermalRecovery := List.mem_singleton.1 hreg
    refine ⟨p, hexec, nofun, nofun, nofun, ?_⟩
    rintro a b c ⟨⟩
    simp [DeviceRegister.layout, value_toNat hfirst, value_toNat hsecond, value_toNat hwarning]
  | _ => cases hreg

end Sys2Proof.Proofs
end

section
/-! PROOF. What a frame puts on the serial bus (20_memory.md R54, R60, R61), and what a step runs (R57, R62). -/

namespace Sys2Proof.Proofs

open Sys2Proof.Machine Sys2Proof.Safety Sys2Proof.Laws

/-! ### The bits on the wire -/

theorem wireBits_eq (f : Frame) :
    wireBits f = [15, 14, 13, 12, 11, 10, 9, 8, 7, 6, 5, 4, 3, 2, 1, 0].map f.getLsbD := rfl

/-- The bracket around a transfer moves no bit of its own. -/
theorem movedBits_transferEvents (f : Frame) : (transferEvents f).filterMap movedBit = wireBits f := rfl

theorem wireBits_writeFrame (a : BitVec 4) (p : BitVec 1) (d : Payload) :
    wireBits (1#1 ++ a ++ p ++ d) = true :: ([3, 2, 1, 0].map a.getLsbD ++ [p.getLsbD 0]
      ++ [9, 8, 7, 6, 5, 4, 3, 2, 1, 0].map d.getLsbD) := by
  simp only [wireBits_eq, List.map_cons, List.map_nil, BitVec.getLsbD_append]
  simp [-BitVec.getLsbD_eq_getElem]

theorem wireBits_readFrame (a : BitVec 5) (p : BitVec 1) :
    wireBits (0#1 ++ a ++ p ++ 0#9)
      = false :: ([4, 3, 2, 1, 0].map a.getLsbD ++ [p.getLsbD 0] ++ List.replicate 9 false) := by
  simp only [wireBits_eq, List.map_cons, List.map_nil, BitVec.getLsbD_append]
  simp [-BitVec.getLsbD_eq_getElem]

/-- A frame that decodes runs as its row, which transfers it. -/
theorem exec_of_decodeFrame {f : Frame} {i : Instr} (h : decodeFrame f = .ok i) (s : State) :
    exec i s = .next (transfer f s) := by
  rw [← runFrame_eq, runFrame, h]

/-! ### The obligations -/

/-- Settles O43: every transfer puts the frame's bits on the wire from bit 15 down, which for the two rows are the
fields side by side. -/
theorem framesGoOutMsbFirst : Obligations.FramesGoOutMsbFirst := by
  refine ⟨fun address parity payload s => ?_, fun address parity s => ?_, fun f rest s hport => ?_⟩
  · exact ⟨_, rfl, (movedBits_transferEvents _).trans (wireBits_writeFrame address parity payload)⟩
  · exact ⟨_, rfl, (movedBits_transferEvents _).trans (wireBits_readFrame address parity)⟩
  · exact ⟨_, step_of_frame hport, (movedBits_transferEvents f).trans (wireBits_eq f)⟩

/-- Settles O44: the bracket is `transferEvents`, around the 16 bits of the frame. -/
theorem transfersAreBracketed : Obligations.TransfersAreBracketed := by
  refine ⟨fun f i s hdec => ⟨wireBits f, rfl, exec_of_decodeFrame hdec s⟩, fun f rest s hport => ?_⟩
  exact ⟨wireBits f, rfl, step_of_frame hport⟩

/-- Settles O50: by the oldest event; a bus word runs as its row where it has one, and is transferred either way. -/
theorem stepRunsTheDecodedInstruction : Obligations.StepRunsTheDecodedInstruction := by
  refine fun s rest => ⟨fun now cw i hport hdec => ?_, fun f i hport hdec => ?_, fun f e hport _ => ?_, ?_⟩
  · cases hdec
    exact step_of_command hport
  · rw [step_of_frame hport, exec_of_decodeFrame hdec]
  · exact step_of_frame hport
  · exact step_of_no_event

end Sys2Proof.Proofs
end

section
/-! PROOF. The boot order (70_reset_and_hazards.md R232, R234). -/

namespace Sys2Proof.Proofs

open Sys2Proof.Machine Sys2Proof.Safety Sys2Proof.Laws

theorem bootRole_calibrates_iff (i : Instr) :
    bootRole i = .calibrates ↔ ∃ a b : Operand, i = .cal a b ∧ a ≠ 0#16 := by
  cases i <;> simp [bootRole]

/-- A command sets the calibration flag when it calibrates, and leaves it otherwise. -/
theorem exec_calibrated {i : Instr} {s t : State} (hexec : exec i s = .next t) :
    t.blk.calibrated = (decide (bootRole i = .calibrates) || s.blk.calibrated) := by
  by_cases hrole : bootRole i = .calibrates
  · obtain ⟨a, b, rfl, ha⟩ := (bootRole_calibrates_iff i).1 hrole
    rw [exec_cal_of_ne_zero s b ha] at hexec
    cases hexec
    simp [hrole]
  · obtain ⟨b, sm, o, hnext, heffect⟩ := exec_effect i s
    rw [hnext] at hexec
    cases hexec
    obtain ⟨-, hcal⟩ | hcalibrates := effect_calibration heffect
    · simpa [hrole] using hcal
    · exact absurd ((bootRole_calibrates_iff i).2 hcalibrates) hrole

/-- What the boot order asks of a command, and of the events after it. -/
theorem calibratesFirst_command {done : Bool} {now : Time} {cw : CommandWord} {rest : List PortEvent}
    (h : calibratesFirst done (.command now cw :: rest) = true) :
    calibratesFirst (decide (bootRole (decodeCommand cw) = .calibrates) || done) rest = true
      ∧ (bootRole (decodeCommand cw) = .samples → done = true) := by
  cases hrole : bootRole (decodeCommand cw) with
  | calibrates =>
    simp only [calibratesFirst, hrole] at h
    exact ⟨h, nofun⟩
  | samples =>
    simp only [calibratesFirst, hrole, Bool.and_eq_true] at h
    obtain ⟨hdone, hrest⟩ := h
    exact ⟨hrest, fun _ => hdone⟩
  | other =>
    simp only [calibratesFirst, hrole] at h
    exact ⟨h, nofun⟩

/-- Settles O57: the calibration flag is the boot order's `done` after every step. -/
theorem bootOrderMeansCalibrated : Obligations.BootOrderMeansCalibrated := by
  intro s t horder hstep
  constructor
  · cases step_effect hstep with
    | idle _ ht => rwa [ht]
    | reset rest hport ht =>
      rw [hport] at horder
      rw [ht]
      exact horder
    | moved rest f hport ht =>
      rw [hport] at horder
      rw [ht]
      exact horder
    | ran rest cw now b sm o hport _ hexec ht =>
      rw [hport] at horder
      rw [exec_calibrated hexec, step_port hstep, hport]
      exact (calibratesFirst_command horder).1
  · intro now cw rest hport hrole
    rw [hport] at horder
    exact (calibratesFirst_command horder).2 hrole

end Sys2Proof.Proofs
end
